-- ==== Sys2Proof/Word.lean ====
section
/-! DEFINITION. The two widths of the block: a byte of 8 bits and a word of 16 bits (R6, R10). -/

namespace Sys2Proof

/-- A byte: 8 bits (R6 `BYTE_BITS`, R10). -/
abbrev Byte := BitVec 8

/-- A word: 16 bits, "signed" only in the reader's eyes (R6 `WORD_BITS`, R10, R11). -/
abbrev Word := BitVec 16

end Sys2Proof
end

