-- ==== Sys2Proof/Config.lean ====
section
/-! DEFINITION. The implementation parameters the spec names (R6) and the two values it leaves OPEN.
An open value is an opaque constant: nothing in Lean can say what it is, so a theorem that names it
holds for every value. -/

namespace Sys2Proof

/-- `SNAPSHOT_MODE` (R6, D10): how the engine fetches a word. `none` is the document's behaviour (R134). -/
inductive SnapshotMode where
  | none
  | word
  | triple
  deriving DecidableEq, Repr

/-- The default of `SNAPSHOT_MODE` (R6), the mode of `Machine.State.reset`. -/
def Config.snapshotMode : SnapshotMode := .none

/-- `TXD_RESET` (R6, R36), OPEN: the byte in the output latch after every RESET of the reset run.
DESIGN CHOICE, log 3: a free value. -/
opaque Config.txdReset : Byte

/-- `SB_RESET` (R6, R36), OPEN: the word the buffer holds at power-up at a 4-bit word address of R51.
DESIGN CHOICE, log 4: a free value at each of the nine addresses. -/
opaque Config.sbReset : BitVec 4 → Word

end Sys2Proof
end

