-- ==== Sys2Proof/Syntax.lean ====
section
/-! DEFINITION. The vocabulary of the block (selections, slots, halves, the cursor), the words its ports
carry (R80), and the closed set of events that is its instruction set (R8): one constructor of `Instr` per
row of spec/opcode_table.json. -/

namespace Sys2Proof

/-- The selection (R27): one of the three triples, or Null. -/
inductive Sel where
  | acc
  | gyr
  | tmp
  | null
  deriving DecidableEq, Repr

/-- The slot of a triple (R24): X, Y, Z are slots 0, 1, 2. Three-valued, as R26 asks (log 18). -/
inductive Slot where
  | x
  | y
  | z
  deriving DecidableEq, Repr

/-- Which byte of the word is next (R24). -/
inductive Half where
  | high
  | low
  deriving DecidableEq, Repr

/-- The transfer cursor (R24): the position of the byte the next invocation produces. -/
structure Cursor where
  slot : Slot
  half : Half
  deriving DecidableEq, Repr

/-- (0,HIGH): the command position, where a cycle starts (R24, R36, R87). -/
def Cursor.start : Cursor := ⟨.x, .high⟩

/-- What one port carries for one event (R80): a byte of an exchange, one 20-bit write transaction, or the
level of the reset input. -/
inductive PortWord where
  | cmd8 (op : Byte)
  | sbw20 (w : BitVec 20)
  | pin (rst : BitVec 1)
  deriving DecidableEq, Repr

/-- The events (R8), in the order of spec/opcode_table.json. -/
inductive Instr where
  /-- `XCHG.A` (R110). -/
  | xchgA
  /-- `XCHG.G` (R111). -/
  | xchgG
  /-- `XCHG.T` (R112). -/
  | xchgT
  /-- `XCHG.N` (R113), with the byte that is none of the three commands. -/
  | xchgN (op : Byte)
  /-- `XCHG.D` (R114), with the byte that is not examined. -/
  | xchgD (ignored : Byte)
  /-- `SB.WR` (R130): triple index, slot index, data. -/
  | sbWr (t s : BitVec 2) (d : Word)
  /-- `RESET` (R200). -/
  | reset
  deriving DecidableEq, Repr

end Sys2Proof
end

