-- ==== Sys2Proof/WellFormed.lean ====
section
/-! DEFINITION. Which terms of `Instr` are events of the block (R8, R87): the operand of `XCHG.N` is none of
the three commands, and an exchange has its name only at the cursor position its row gives. -/

namespace Sys2Proof

/-- The operand check (R87, R113): `XCHG.N` carries a byte outside {0x61, 0x67, 0x74}. -/
def Instr.operandsOk : Instr → Bool
  | .xchgA => true
  | .xchgG => true
  | .xchgT => true
  | .xchgN op => op != 0x61#8 && op != 0x67#8 && op != 0x74#8
  | .xchgD _ => true
  | .sbWr _ _ _ => true
  | .reset => true

/-- The position check (the `when` of the opcode table, R8, R87): selecting exchanges happen at (0,HIGH),
data exchanges elsewhere, and the other two events at any time. -/
def Instr.positionOk (c : Cursor) : Instr → Bool
  | .xchgA => decide (c = Cursor.start)
  | .xchgG => decide (c = Cursor.start)
  | .xchgT => decide (c = Cursor.start)
  | .xchgN _ => decide (c = Cursor.start)
  | .xchgD _ => decide (c ≠ Cursor.start)
  | .sbWr _ _ _ => true
  | .reset => true

/-- The term is an event of the block when the cursor stands at `c`. -/
def Instr.wellFormedAt (c : Cursor) (i : Instr) : Bool := i.operandsOk && i.positionOk c

end Sys2Proof
end

