-- ==== Sys2Proof/Decode.lean ====
section
/-! DEFINITION. Decoding a port word into an event, and the encoder. A decoder of this block takes two inputs,
the word and the cursor (R90). Decoding is total; the one word that is no event, the reset input at 0, is
rejected by name. -/

namespace Sys2Proof

/-- Why a port word is no event. -/
inductive DecodeError where
  /-- The reset input is at 0: `RESET` is the input "while 1" (R38, R80). -/
  | resetInputLow
  deriving DecidableEq, Repr

/-- The decode of a command byte (R82): all eight bits are compared, every other byte is Null. -/
def decodeCommand (rx : Byte) : Sel :=
  if rx = 0x61#8 then .acc
  else if rx = 0x67#8 then .gyr
  else if rx = 0x74#8 then .tmp
  else .null

/-- The cursor is at the command position (0,HIGH) (R87, R102). -/
def commandPosition (c : Cursor) : Bool :=
  match c.slot, c.half with
  | .x, .high => true
  | _, _ => false

/-- The event an exchanged byte is at a command position (R87, the first four rows). -/
def decodeSelecting (rx : Byte) : Instr :=
  match decodeCommand rx with
  | .acc => .xchgA
  | .gyr => .xchgG
  | .tmp => .xchgT
  | .null => .xchgN rx

/-- The event of an exchanged byte, by the cursor at the start of the exchange (R87). -/
def decodeExchange (c : Cursor) (rx : Byte) : Instr :=
  if commandPosition c then decodeSelecting rx else .xchgD rx

/-- The event of a write transaction (R83): `t` is bits 19:18, `s` bits 17:16, `d` bits 15:0. -/
def decodeWrite (w : BitVec 20) : Instr :=
  .sbWr (w.extractLsb' 18 2) (w.extractLsb' 16 2) (w.extractLsb' 0 16)

/-- The event a port word is when the cursor stands at `c` (R80, R87, R90). -/
def decode (c : Cursor) (w : PortWord) : Except DecodeError Instr :=
  match w with
  | .cmd8 rx => .ok (decodeExchange c rx)
  | .sbw20 t => .ok (decodeWrite t)
  | .pin rst => if rst = 1#1 then .ok .reset else .error .resetInputLow

/-- The port word of an event (R81, R83, R80). -/
def encode (i : Instr) : PortWord :=
  match i with
  | .xchgA => .cmd8 0x61#8
  | .xchgG => .cmd8 0x67#8
  | .xchgT => .cmd8 0x74#8
  | .xchgN op => .cmd8 op
  | .xchgD ignored => .cmd8 ignored
  | .sbWr t s d => .sbw20 ((t ++ s : BitVec 4) ++ d)
  | .reset => .pin 1#1

/-- The port word whose bits are `w`, told by its width: one bit is `PIN`, a byte `CMD8`, a wider word
`SBW20` (20 bits, 24 in whole bytes). DESIGN CHOICE, log 9: the table numbers the words of three ports. -/
def portWordOf (nbits w : Nat) : Option PortWord :=
  if nbits = 0 then none
  else if nbits = 1 then (if w < 2 then some (.pin (BitVec.ofNat 1 w)) else none)
  else if nbits ≤ 8 then (if w < 256 then some (.cmd8 (BitVec.ofNat 8 w)) else none)
  else if nbits ≤ 24 then (if w < 1048576 then some (.sbw20 (BitVec.ofNat 20 w)) else none)
  else none

/-- The event this decoder reads from a row's bits. The table gives no cursor, so the byte of an exchange is
read at the command position, where the block stands after RESET (log 9). -/
def decodeTableWord (nbits w : Nat) : Option Instr :=
  match portWordOf nbits w with
  | none => none
  | some p =>
    match decode Cursor.start p with
    | .ok i => some i
    | .error _ => none

end Sys2Proof
end

