-- ==== Sys2Proof/Machine/State.lean ====
section
/-! DEFINITION. The complete architectural state of the block (R20), as plain data, with the environment's two
lists beside it, and the state after reset (R36). -/

namespace Sys2Proof.Machine

/-- A sample triple: three words X, Y, Z (R21). -/
structure Triple where
  x : Word
  y : Word
  z : Word
  deriving DecidableEq, Repr

/-- The sample buffer: three triples, nine separate words, none hardwired, none aliased (R21, R22). -/
structure SampleBuffer where
  acc : Triple
  gyr : Triple
  tmp : Triple
  deriving DecidableEq, Repr

/-- The snapshot register the block has, by `SNAPSHOT_MODE` (R30, R31): none, the 16-bit `HOLD`, or the three
words `SNAP[0..2]`. A register of another mode does not exist and cannot be written down (log 5). -/
inductive Snapshot where
  | none
  | word (hold : Word)
  | triple (snap : Triple)
  deriving DecidableEq, Repr

/-- The engine's state `S` of R100: `SEL`, the cursor (`SLOT`, `HALF`), and by mode `HOLD` or `SNAP`. -/
structure Engine where
  sel : Sel
  cursor : Cursor
  snapshot : Snapshot
  deriving DecidableEq, Repr

/-- The state of the machine. -/
structure State where
  /-- The sample buffer `SB` (R20, R21). -/
  sb : SampleBuffer
  /-- The engine's state (R20, R100). -/
  engine : Engine
  /-- The output latch `TXD` (R29). -/
  txd : Byte
  /-- The parameter `TXD_RESET` (R6): no event changes it (log 3). -/
  txdReset : Byte
  /-- What the environment will present at the ports, next one first: the model's own (log 1). -/
  inbox : List PortWord
  /-- The bytes the master has received, oldest first (the `wire` of R100): the model's own (log 2). -/
  outbox : List Byte
  deriving DecidableEq, Repr

/-- The reasons a step can fault. There is none: "No error is ever signaled by the engine; it has no failure
path" (R170, R172). No definition raises a fault; that is as the spec says, so neither safe nor unsafe. -/
inductive Fault where
  deriving DecidableEq, Repr

/-- The reasons a step can be refused. -/
inductive Refusal where
  /-- Raised only by an arm of `exec` whose event has no meaning yet; every event has one, so by none. Safe. -/
  | notModelled (mnemonic : String)
  deriving DecidableEq, Repr

/-- The mode of a snapshot register (R6, R30, R31). -/
def Snapshot.mode : Snapshot → SnapshotMode
  | .none => .none
  | .word _ => .word
  | .triple _ => .triple

/-- The `SNAPSHOT_MODE` of the machine (R6). -/
def State.mode (s : State) : SnapshotMode := s.engine.snapshot.mode

/-- The cursor (R24). -/
def State.cursor (s : State) : Cursor := s.engine.cursor

/-- The state with another sample buffer. -/
def State.withSb (s : State) (b : SampleBuffer) : State := { s with sb := b }

/-- The state with another engine state. -/
def State.withEngine (s : State) (e : Engine) : State := { s with engine := e }

/-- The state with another byte in the output latch. -/
def State.withTxd (s : State) (b : Byte) : State := { s with txd := b }

/-- The state with other port words to come. -/
def State.withInbox (s : State) (l : List PortWord) : State := { s with inbox := l }

/-- The state after the master has received one more byte. -/
def State.receive (s : State) (b : Byte) : State := { s with outbox := s.outbox ++ [b] }

/-- The machine right after power-up reset (R36, R202): selection Null, cursor (0,HIGH), the default mode
NONE (so no snapshot register), `TXD` at the open value `TXD_RESET`, the buffer at the open values
`SB_RESET`, and nothing yet presented at the ports or received by the master (logs 1 to 5, 7). -/
def State.reset : State where
  sb :=
    { acc := ⟨Config.sbReset 0x0#4, Config.sbReset 0x1#4, Config.sbReset 0x2#4⟩
      gyr := ⟨Config.sbReset 0x4#4, Config.sbReset 0x5#4, Config.sbReset 0x6#4⟩
      tmp := ⟨Config.sbReset 0x8#4, Config.sbReset 0x9#4, Config.sbReset 0xA#4⟩ }
  engine := { sel := .null, cursor := Cursor.start, snapshot := .none }
  txd := Config.txdReset
  txdReset := Config.txdReset
  inbox := []
  outbox := []

end Sys2Proof.Machine
end

