-- ==== Sys2Proof/Machine/Operands.lean ====
section
/-! DEFINITION. The operand forms: the bit codes of selection and slot and the 4-bit word address made of them
(R27, R24, R51, R139), the two bytes of a word (R104), and the cursor as a number (R24). -/

namespace Sys2Proof.Machine

/-- The 2-bit code of a selection (R27): ACC 0, GYR 1, TMP 2, NULL 3. -/
def selCode : Sel → BitVec 2
  | .acc => 0#2
  | .gyr => 1#2
  | .tmp => 2#2
  | .null => 3#2

/-- The selection of a 2-bit code; every pattern is legal (R27). -/
def selOfCode (t : BitVec 2) : Sel :=
  if t = 0#2 then .acc
  else if t = 1#2 then .gyr
  else if t = 2#2 then .tmp
  else .null

/-- The 2-bit code of a slot (R24). -/
def slotCode : Slot → BitVec 2
  | .x => 0#2
  | .y => 1#2
  | .z => 2#2

/-- The slot of a 2-bit code; the pattern 3 names no slot (R26, R51). -/
def slotOfCode (s : BitVec 2) : Option Slot :=
  if s = 0#2 then some .x
  else if s = 1#2 then some .y
  else if s = 2#2 then some .z
  else none

/-- The 1-bit code of a half (R24): HIGH 0, LOW 1. -/
def halfCode : Half → BitVec 1
  | .high => 0#1
  | .low => 1#1

/-- The 4-bit word address `{t, s}` (R51). -/
def wordAddress (t s : BitVec 2) : BitVec 4 := t ++ s

/-- The engine's read address `{SEL, SLOT}` (R139). -/
def readAddress (t : Sel) (s : Slot) : BitVec 4 := wordAddress (selCode t) (slotCode s)

/-- The word a 4-bit address names (R51): `a[3:2]` is the triple, `a[1:0]` the slot; the seven addresses with
`t = 3` or `s = 3` are reserved and name none (R53). -/
def addressedWord (a : BitVec 4) : Option (Sel × Slot) :=
  match selOfCode (a.extractLsb' 2 2), slotOfCode (a.extractLsb' 0 2) with
  | .null, _ => none
  | _, none => none
  | t, some s => some (t, s)

/-- The high byte `v[15:8]` (R9, R104). -/
def highByte (v : Word) : Byte := v.extractLsb' 8 8

/-- The low byte `v[7:0]` (R9, R104). -/
def lowByte (v : Word) : Byte := v.extractLsb' 0 8

/-- The byte of a word that a half names (R104). -/
def byteOf (h : Half) (v : Word) : Byte :=
  match h with
  | .high => highByte v
  | .low => lowByte v

/-- The cursor as the number `pos = 2·SLOT + HALF` in 0..5 (R24). -/
def cursorPos (c : Cursor) : Nat := 2 * (slotCode c.slot).toNat + (halfCode c.half).toNat

end Sys2Proof.Machine
end

