-- ==== Sys2Proof/Machine/Flags.lean ====
section
/-! DEFINITION. The block has no status flags, no condition codes and no error flag (R32), so no event
computes one. The conditions the engine tests are two, both on the cursor at the start of the invocation. -/

namespace Sys2Proof.Machine

/-- The invocation starts at (0,HIGH): the only condition of the selection update (R102). -/
def Engine.atCommand (e : Engine) : Bool := commandPosition e.cursor

/-- The invocation starts with `HALF = HIGH`: the condition of `HOLD`'s capture (R30, R135). `HALF` is part
of the cursor, not a flag (R32). -/
def Engine.atHigh (e : Engine) : Bool :=
  match e.cursor.half with
  | .high => true
  | .low => false

end Sys2Proof.Machine
end

