-- ==== Sys2Proof/Machine/Ops.lean ====
section
/-! DEFINITION. The named operations over the sample buffer, the engine's state and the ports: the buffer's
read and write (R133, R130), the fetch by snapshot mode (R134, R135, R136), the engine's step function
(R101), the exchange at the wire (R100), and reset (R200).

The block takes no exception (R170). Its one interrupt, the completion of an exchange, saves nothing, changes
no mode and goes to one fixed algorithm (R173, R177, R179): `exchange` is that interrupt, taken and returned
from in one atomic event (R100, log 14). -/

namespace Sys2Proof.Machine

/-- One word of a triple (R21). -/
def Triple.get (v : Triple) : Slot → Word
  | .x => v.x
  | .y => v.y
  | .z => v.z

/-- A triple with one word replaced. -/
def Triple.set (v : Triple) (s : Slot) (d : Word) : Triple :=
  match s with
  | .x => { v with x := d }
  | .y => { v with y := d }
  | .z => { v with z := d }

/-- The triple a selection exposes (R21, R103); Null is "all zero" and consults no storage (R53). -/
def SampleBuffer.selected (b : SampleBuffer) : Sel → Triple
  | .acc => b.acc
  | .gyr => b.gyr
  | .tmp => b.tmp
  | .null => ⟨0#16, 0#16, 0#16⟩

/-- `SBread(t, s)` (R133): one whole word, `0x0000` for Null. -/
def SampleBuffer.read (b : SampleBuffer) (t : Sel) (s : Slot) : Word := (b.selected t).get s

/-- The buffer with one word of one triple replaced (R130); Null has no storage (R131). -/
def SampleBuffer.replace (b : SampleBuffer) (t : Sel) (s : Slot) (d : Word) : SampleBuffer :=
  match t with
  | .acc => { b with acc := b.acc.set s d }
  | .gyr => { b with gyr := b.gyr.set s d }
  | .tmp => { b with tmp := b.tmp.set s d }
  | .null => b

/-- `SBwrite(a, d)` on the buffer (R130): the word the address names becomes `d`; a write to a reserved
address changes nothing (R131). -/
def SampleBuffer.write (b : SampleBuffer) (a : BitVec 4) (d : Word) : SampleBuffer :=
  match addressedWord a with
  | none => b
  | some (t, s) => b.replace t s d

/-- `SBwrite(a, d)` on the machine (R130): it changes no other state. -/
def sbWrite (a : BitVec 4) (d : Word) (s : State) : State := s.withSb (s.sb.write a d)

/-- The next slot, `(SLOT + 1) mod 3` (R106). -/
def nextSlot : Slot → Slot
  | .x => .y
  | .y => .z
  | .z => .x

/-- The cursor's advance, one step of the unconditional ring (R106). -/
def nextCursor (c : Cursor) : Cursor :=
  match c.half with
  | .high => ⟨c.slot, .low⟩
  | .low => ⟨nextSlot c.slot, .high⟩

/-- The selection after step 2 of the algorithm (R102): the decode of this exchange's byte at (0,HIGH),
otherwise the latched selection. -/
def selectionUpdate (e : Engine) (rx : Byte) : Sel :=
  if e.atCommand then decodeCommand rx else e.sel

/-- Fetch in mode WORD (R135): at HIGH the word is read and captured in `HOLD`, at LOW `HOLD` is used. -/
def fetchWord (hold : Word) (sel : Sel) (e : Engine) (b : SampleBuffer) : Word × Snapshot :=
  if e.atHigh then (b.read sel e.cursor.slot, .word (b.read sel e.cursor.slot)) else (hold, .word hold)

/-- Fetch in mode TRIPLE (R136): at (0,HIGH) the whole triple is captured in `SNAP`, elsewhere `SNAP` is
used. -/
def fetchTriple (snap : Triple) (sel : Sel) (e : Engine) (b : SampleBuffer) : Word × Snapshot :=
  if e.atCommand then
    (b.read sel .x, .triple ⟨b.read sel .x, b.read sel .y, b.read sel .z⟩)
  else (snap.get e.cursor.slot, .triple snap)

/-- The word for this position and the snapshot register after the fetch, by mode (R103). In mode NONE the
buffer is read at every invocation (R134). -/
def fetch (sel : Sel) (e : Engine) (b : SampleBuffer) : Word × Snapshot :=
  match e.snapshot with
  | .none => (b.read sel e.cursor.slot, .none)
  | .word hold => fetchWord hold sel e b
  | .triple snap => fetchTriple snap sel e b

/-- The engine's step function (R101, R14): the new engine state and the produced byte. -/
def engineStep (e : Engine) (b : SampleBuffer) (rx : Byte) : Engine × Byte :=
  let sel := selectionUpdate e rx
  let fetched := fetch sel e b
  ({ sel := sel, cursor := nextCursor e.cursor, snapshot := fetched.2 }, byteOf e.cursor.half fetched.1)

/-- `XCHG(rx)` (R100): the master receives the old `TXD`, the engine runs once, and `TXD` takes the byte it
produced. -/
def exchange (rx : Byte) (s : State) : State :=
  let r := engineStep s.engine s.sb rx
  ((s.receive s.txd).withEngine r.1).withTxd r.2

/-- The snapshot register after RESET, by mode: zeros where it exists (R36, R200). -/
def clearSnapshot : Snapshot → Snapshot
  | .none => .none
  | .word _ => .word 0#16
  | .triple _ => .triple ⟨0#16, 0#16, 0#16⟩

/-- The engine state after RESET (R36, R200). -/
def resetEngine (e : Engine) : Engine :=
  { sel := .null, cursor := Cursor.start, snapshot := clearSnapshot e.snapshot }

/-- `RESET` (R200): the engine state and `TXD`; the sample buffer is not written. -/
def resetBlock (s : State) : State := (s.withEngine (resetEngine s.engine)).withTxd s.txdReset

/-- A snapshot register of a mode, cleared (R36). -/
def Snapshot.ofMode : SnapshotMode → Snapshot
  | .none => .none
  | .word => .word 0#16
  | .triple => .triple ⟨0#16, 0#16, 0#16⟩

/-- The machine at power-up as the function of its parameters that R6 describes (R36, R202). -/
def State.powerUp (mode : SnapshotMode) (txdReset : Byte) (sbReset : SampleBuffer) : State where
  sb := sbReset
  engine := { sel := .null, cursor := Cursor.start, snapshot := Snapshot.ofMode mode }
  txd := txdReset
  txdReset := txdReset
  inbox := []
  outbox := []

end Sys2Proof.Machine
end

