-- ==== Sys2Proof/Machine/Buffer.lean ====
section
/-! DEFINITION. The meaning of the Sampler's write event (R130, R131). -/

namespace Sys2Proof.Machine

/-- `SB.WR` (R130): write `d` at the word address `{t, s}`. -/
def execSbWr (t s : BitVec 2) (d : Word) (st : State) : Host.Outcome State Fault Refusal :=
  .next (sbWrite (wordAddress t s) d st)

end Sys2Proof.Machine
end

