-- ==== Sys2Proof/Machine/Exchange.lean ====
section
/-! DEFINITION. The meanings of the five exchange events (R110 to R114). They are one algorithm (R100, R101);
the names split it by what the byte and the cursor decode to, so each meaning is the exchange of its byte
(log 8). -/

namespace Sys2Proof.Machine

/-- `XCHG.A` (R110): the exchange of 0x61. -/
def execXchgA (s : State) : Host.Outcome State Fault Refusal := .next (exchange 0x61#8 s)

/-- `XCHG.G` (R111): the exchange of 0x67. -/
def execXchgG (s : State) : Host.Outcome State Fault Refusal := .next (exchange 0x67#8 s)

/-- `XCHG.T` (R112): the exchange of 0x74. -/
def execXchgT (s : State) : Host.Outcome State Fault Refusal := .next (exchange 0x74#8 s)

/-- `XCHG.N` (R113): the exchange of a byte that is no command. -/
def execXchgN (op : Byte) (s : State) : Host.Outcome State Fault Refusal := .next (exchange op s)

/-- `XCHG.D` (R114): the exchange of a byte that is not examined. -/
def execXchgD (ignored : Byte) (s : State) : Host.Outcome State Fault Refusal := .next (exchange ignored s)

end Sys2Proof.Machine
end

