-- ==== Sys2Proof/Machine/Dispatch.lean ====
section
/-! DEFINITION. One arm per event of the opcode table (R8). -/

namespace Sys2Proof.Machine

def exec (i : Instr) (s : State) : Host.Outcome State Fault Refusal :=
  match i with
  | .xchgA => Sys2Proof.Machine.execXchgA s
  | .xchgG => Sys2Proof.Machine.execXchgG s
  | .xchgT => Sys2Proof.Machine.execXchgT s
  | .xchgN op => Sys2Proof.Machine.execXchgN op s
  | .xchgD ignored => Sys2Proof.Machine.execXchgD ignored s
  | .sbWr t w d => Sys2Proof.Machine.execSbWr t w d s
  | .reset => Sys2Proof.Machine.execReset s

end Sys2Proof.Machine
end

