-- ==== Sys2Proof/Machine/Fetch.lean ====
section
/-! DEFINITION. Taking the next port word, and placing one there. The block fetches nothing from a memory
(R35, R65): its events come from outside, and `inbox` lists them in the order they happen (R58, log 1). -/

namespace Sys2Proof.Machine

/-- The next event, decoded at the cursor of this moment (R90), with the state in which its port word has
been taken; the event is absent when the word is none (the reset input at 0, log 11). -/
def takeWord (w : PortWord) (rest : List PortWord) (s : State) : Option Instr × State :=
  match decode s.cursor w with
  | .ok i => (some i, s.withInbox rest)
  | .error _ => (none, s.withInbox rest)

/-- The state in which a table row's word is the next the environment presents (logs 9, 10). -/
def placeWord (s : State) (nbits w : Nat) : State :=
  match portWordOf nbits w with
  | some p => s.withInbox (p :: s.inbox)
  | none => s

end Sys2Proof.Machine
end

