-- ==== Sys2Proof/Machine/Step.lean ====
section
/-! DEFINITION. One step: the next port word the environment presents, decoded and run. With nothing presented
the block stays as it is: it has no halt and waits for nothing (R172, log 1). -/

namespace Sys2Proof.Machine

/-- One step of the machine. -/
def step (s : State) : Host.Outcome State Fault Refusal :=
  match s.inbox with
  | [] => .next s
  | w :: rest =>
    match takeWord w rest s with
    | (some i, s') => exec i s'
    | (none, s') => .next s'

/-- `s` with the word of a table row where the next step takes its word from. -/
def State.withFetchWord (s : State) (nbits w : Nat) : State := placeWord s nbits w

end Sys2Proof.Machine
end

