-- ==== Sys2Proof/Machine/Master.lean ====
section
/-! DEFINITION. The bus master's side of the protocol: the response frame (R84), how a master recombines bytes
(R105) and finds a frame in what it received (R85), and the macros it sends (R92). No event reads any of it. -/

namespace Sys2Proof.Machine

/-- Format `FRAME48` (R84): the six bytes that carry a triple, in the order they are produced. -/
def frameBytes (v : Triple) : List Byte :=
  [highByte v.x, lowByte v.x, highByte v.y, lowByte v.y, highByte v.z, lowByte v.z]

/-- The word a master assembles from two bytes, `{high, low}` (R86, R105). -/
def assemble (high low : Byte) : Word := high ++ low

/-- The signed reading of a word (R11): `v[14:0] − 32768·v[15]`. PRESUMED two's complement, as the spec's own
G1 says (log 16). -/
def signedValue (v : Word) : Int := (v.extractLsb' 0 15).toNat - 32768 * (v.extractLsb' 15 1).toNat

/-- The triple a master assembles from six bytes (R84, R105). -/
def assembleFrame : List Byte → Option Triple
  | [xh, xl, yh, yl, zh, zl] => some ⟨assemble xh xl, assemble yh yl, assemble zh zl⟩
  | _ => none

/-- The bytes a master takes as frame `j`, from what it has received since RESET: exchanges `6j+2 .. 6j+7`
(R85, R210). -/
def frameAt (j : Nat) (received : List Byte) : List Byte := (received.drop (6 * j + 1)).take 6

/-- `FRAME c` (R92): a command and five filler bytes. -/
def macroFrame (c : Byte) : List PortWord :=
  [.cmd8 c, .cmd8 0x00#8, .cmd8 0x00#8, .cmd8 0x00#8, .cmd8 0x00#8, .cmd8 0x00#8]

/-- `FLUSH` (R92): the exchange that collects a frame's last byte. -/
def macroFlush : List PortWord := [.cmd8 0x00#8]

end Sys2Proof.Machine
end

