-- ==== Sys2Proof/Machine/Ports.lean ====
section
/-! DEFINITION. The pin-level form of the events (R38): one sample of the block's input ports, and the port
words it presents. -/

namespace Sys2Proof.Machine

/-- One sample of the six input ports of R38. -/
structure PortSample where
  rst : Bool
  xchgDone : Bool
  rxData : Byte
  sbWe : Bool
  sbAddr : BitVec 4
  sbWdata : Word
  deriving DecidableEq, Repr

/-- The output port `tx_data` (R38): the content of `TXD`. -/
def txData (s : State) : Byte := s.txd

/-- The exchange a sample presents, if its strobe is up. -/
def PortSample.exchangeWords (p : PortSample) : List PortWord :=
  if p.xchgDone then [.cmd8 p.rxData] else []

/-- The write a sample presents, if its strobe is up (R83). -/
def PortSample.writeWords (p : PortSample) : List PortWord :=
  if p.sbWe then [.sbw20 (p.sbAddr ++ p.sbWdata)] else []

/-- The port words of one sample. Reset overrides: while `rst` is 1 no exchange and no write has any effect
(R176, R201). Coincident strobes are taken in either order (R61, R176): the order is the argument
`writeFirst` (log 15). -/
def PortSample.words (p : PortSample) (writeFirst : Bool) : List PortWord :=
  if p.rst then [.pin 1#1]
  else if writeFirst then p.writeWords ++ p.exchangeWords
  else p.exchangeWords ++ p.writeWords

end Sys2Proof.Machine
end

