-- ==== Sys2Proof/Machine/Sampler.lean ====
section
/-! DEFINITION. The Sampler's contract toward the block (R150 to R160): pairing of raw bytes, the temperature
conversion, and the writes of a refresh. It is an environment of the block, not a part of it (R5a, R150): no
event reads any of it. -/

namespace Sys2Proof.Machine

/-- Big-endian pairing (R152): the byte fetched first is bits 15:8. -/
def pairBytes (b0 b1 : Byte) : Word := b0 ++ b1

/-- The six raw bytes of a 3-axis reading, in the order fetched (R151). -/
structure RawTriple where
  b0 : Byte
  b1 : Byte
  b2 : Byte
  b3 : Byte
  b4 : Byte
  b5 : Byte
  deriving DecidableEq, Repr

/-- Which pair is which axis (R153, the spec's decision D15; log 17). -/
def RawTriple.axes (r : RawTriple) : Triple :=
  ⟨pairBytes r.b0 r.b1, pairBytes r.b2 r.b3, pairBytes r.b4 r.b5⟩

/-- The reference temperature conversion (R154): `(sint16(t) + 12461) / 340`, toward zero, as a 16-bit word.
The direction of truncation is the spec's decision D16 (log 16). -/
def tempConv (t : Word) : Word := BitVec.ofInt 16 (Int.tdiv (t.toInt + 12461) 340)

/-- The port word of one Sampler write to a word of the buffer (R83, R130). -/
def writeWord (t : Sel) (s : Slot) (d : Word) : PortWord := .sbw20 (readAddress t s ++ d)

/-- `REFRESH t, x, y, z` (R92): three word writes, in the order R92 shows. -/
def macroRefresh (t : Sel) (v : Triple) : List PortWord :=
  [writeWord t .x v.x, writeWord t .y v.y, writeWord t .z v.z]

/-- What one `refresh()` acquired (R151), or the part of it that it stores: an acquisition that failed supplies
nothing (R158). -/
structure RawReading where
  accel : Option RawTriple
  gyro : Option RawTriple
  temp : Option (Byte × Byte)
  deriving DecidableEq, Repr

/-- The same converted temperature in all three components (R156). -/
def replicateTemp (v : Word) : Triple := ⟨v, v, v⟩

/-- The writes of the acceleration part of a refresh. -/
def RawReading.accelWrites (r : RawReading) : List PortWord :=
  match r.accel with
  | some a => macroRefresh .acc a.axes
  | none => []

/-- The writes of the angular-rate part of a refresh. -/
def RawReading.gyroWrites (r : RawReading) : List PortWord :=
  match r.gyro with
  | some g => macroRefresh .gyr g.axes
  | none => []

/-- The writes of the temperature part of a refresh, with a Sampler's conversion `conv` (R154, R156; another
Sampler's arithmetic is the open function `TEMP_CONV`, R155). -/
def RawReading.tempWrites (conv : Word → Word) (r : RawReading) : List PortWord :=
  match r.temp with
  | some (b0, b1) => macroRefresh .tmp (replicateTemp (conv (pairBytes b0 b1)))
  | none => []

/-- The up to nine writes of a refresh that stores all of `r` (R151), in one possible order. -/
def RawReading.writes (conv : Word → Word) (r : RawReading) : List PortWord :=
  r.accelWrites ++ r.gyroWrites ++ r.tempWrites conv

/-- All three acquisitions of the refresh succeeded. -/
def RawReading.complete (r : RawReading) : Bool := r.accel.isSome && r.gyro.isSome && r.temp.isSome

/-- `q` is what a refresh that acquired `r` may store. If every acquisition succeeded it stores all three triples;
if one failed it stores any subset of the triples that were acquired, none of them included (R158, the spec's
decision D15; log 17). -/
def RawReading.MayStore (r q : RawReading) : Prop :=
  (q.accel = none ∨ q.accel = r.accel) ∧ (q.gyro = none ∨ q.gyro = r.gyro) ∧
    (q.temp = none ∨ q.temp = r.temp) ∧ (r.complete = true → q = r)

/-- `ws` are the writes of a refresh that acquired `r`: those of some part of `r` it may store (R158), in any
order (R157); log 17. -/
def IsRefresh (conv : Word → Word) (r : RawReading) (ws : List PortWord) : Prop :=
  ∃ q, r.MayStore q ∧ ws.Perm (q.writes conv)

end Sys2Proof.Machine
end

