-- ==== Sys2Proof/Safety.lean ====
section
/-! DEFINITION. The terms the statements are made of: running the machine over a list of port words, the shape of
one cycle, and the invariant of the output latch. -/

namespace Sys2Proof.Machine

/-- `n` steps of the machine (`Host.Core.run` of `Sys2Proof.core`). -/
def runFor (n : Nat) (s : State) : Host.Outcome State Fault Refusal := Host.Core.run Sys2Proof.core n s

/-- The machine, presented with exactly the words `l` in state `s`, takes them all and stands in `t`. -/
def Drains (s : State) (l : List PortWord) (t : State) : Prop :=
  runFor l.length (s.withInbox l) = .next t

/-- Every byte on its way to the master: those received, then the one in the latch. -/
def State.stream (s : State) : List Byte := s.outbox ++ [s.txd]

/-- The word is a byte exchange (format `CMD8`). -/
def isExchange : PortWord → Bool
  | .cmd8 _ => true
  | .sbw20 _ => false
  | .pin _ => false

/-- The word is a Sampler write (format `SBW20`). -/
def isWrite : PortWord → Bool
  | .cmd8 _ => false
  | .sbw20 _ => true
  | .pin _ => false

/-- The word is the reset event (format `PIN` at 1). -/
def isReset : PortWord → Bool
  | .cmd8 _ => false
  | .sbw20 _ => false
  | .pin rst => decide (rst = 1#1)

/-- The word is a write whose triple index is that of the selection (bits 19:18, R83). -/
def writesTriple (t : Sel) : PortWord → Bool
  | .cmd8 _ => false
  | .sbw20 w => decide (w.extractLsb' 18 2 = selCode t)
  | .pin _ => false

/-- The data of the last write to a word among a list of port words, if there is one: the write's address (bits
19:16, R83) is the word's. -/
def lastWritten (t : Sel) (r : Slot) (l : List PortWord) : Option Word :=
  l.reverse.findSome? fun w =>
    match w with
    | .sbw20 w => if w.extractLsb' 16 4 = readAddress t r then some (w.extractLsb' 0 16) else none
    | .cmd8 _ => none
    | .pin _ => none

/-- How many exchanges are in a list of port words. -/
def exchangeCount (l : List PortWord) : Nat := (l.filter isExchange).length

/-- No reset is among the words. -/
abbrev NoReset (l : List PortWord) : Prop := ∀ w ∈ l, isReset w = false

/-- No word writes a word of the triple. -/
abbrev NoWriteTo (t : Sel) (l : List PortWord) : Prop := ∀ w ∈ l, writesTriple t w = false

/-- The words are one whole cycle with command `c` (R16): an exchange of `c`, then exactly five further
exchanges of any bytes, with any Sampler writes before, between and after those five, and no reset. -/
def IsCycle (c : Byte) (l : List PortWord) : Prop :=
  ∃ rest, l = .cmd8 c :: rest ∧ NoReset rest ∧ exchangeCount rest = 5

/-- The half of the position before the cursor's, the one whose byte the latch holds. -/
def precedingHalf (c : Cursor) : Half :=
  match c.half with
  | .high => .low
  | .low => .high

/-- The slot of the position before the cursor's. -/
def precedingSlot (c : Cursor) : Slot :=
  match c.half, c.slot with
  | .low, s => s
  | .high, .x => .z
  | .high, .y => .x
  | .high, .z => .y

/-- Inside a cycle (cursor not at (0,HIGH)) the latch holds the byte of the preceding position: of `HOLD` in
mode WORD, of `SNAP` in mode TRIPLE, and 0 whatever the mode when the selection is Null, whose snapshot
registers are then 0 too (R135, R136, R116). -/
structure LatchInv (s : State) : Prop where
  hold : s.cursor ≠ Cursor.start → ∀ h, s.engine.snapshot = .word h →
    s.txd = byteOf (precedingHalf s.cursor) h
  snap : s.cursor ≠ Cursor.start → ∀ v, s.engine.snapshot = .triple v →
    s.txd = byteOf (precedingHalf s.cursor) (v.get (precedingSlot s.cursor))
  null : s.cursor ≠ Cursor.start → s.engine.sel = .null →
    s.txd = 0#8 ∧ (∀ h, s.engine.snapshot = .word h → h = 0#16) ∧
      ∀ v, s.engine.snapshot = .triple v → v = ⟨0#16, 0#16, 0#16⟩

end Sys2Proof.Machine
end

