-- ==== Sys2Proof/Certificates/Slice0/Obligations.lean ====
section
/-! DEFINITION. The statements about the block, from the numbered rules of spec/. A statement that rests on a
rule the spec marks as its own decision or inference says so in its docstring. -/

open Sys2Proof Sys2Proof.Machine

/-! Encoding. -/

/-- R82: the decode of a command byte compares all eight bits; 253 bytes are Null. -/
def Obligations.CommandByteSelectsTriple : Prop :=
  (∀ rx : Byte,
    (decodeCommand rx = .acc ↔ rx = 0x61#8) ∧ (decodeCommand rx = .gyr ↔ rx = 0x67#8) ∧
      (decodeCommand rx = .tmp ↔ rx = 0x74#8) ∧
      (decodeCommand rx = .null ↔ rx ≠ 0x61#8 ∧ rx ≠ 0x67#8 ∧ rx ≠ 0x74#8)) ∧
    ((List.range 256).filter fun n => decide (decodeCommand (BitVec.ofNat 8 n) = .null)).length = 253

/-- R87: the complete map of the byte of an exchange, by the cursor at its start, with the effect on `SEL`. -/
def Obligations.ExchangeByteNamesEvent : Prop :=
  ∀ (s : State) (rx : Byte),
    (s.cursor = Cursor.start →
      ∀ i sel, ((rx = 0x61#8 ∧ i = .xchgA ∧ sel = .acc) ∨ (rx = 0x67#8 ∧ i = .xchgG ∧ sel = .gyr) ∨
        (rx = 0x74#8 ∧ i = .xchgT ∧ sel = .tmp) ∨
        (rx ∉ [0x61#8, 0x67#8, 0x74#8] ∧ i = .xchgN rx ∧ sel = .null)) →
        decode s.cursor (.cmd8 rx) = .ok i ∧ ∃ t, exec i s = .next t ∧ t.engine.sel = sel) ∧
      (s.cursor ≠ Cursor.start →
        decode s.cursor (.cmd8 rx) = .ok (.xchgD rx) ∧
          ∃ t, exec (.xchgD rx) s = .next t ∧ t.engine.sel = s.engine.sel)

/-- Words written out from the encodings of R81, R83 and R80 decode to their events (a sanity check; the bit
places of `SBW20` are the spec's decision D9). -/
def Obligations.WrittenOutWordsDecode : Prop :=
  decode ⟨.x, .high⟩ (.cmd8 0b01100001#8) = .ok .xchgA ∧
    decode ⟨.x, .high⟩ (.cmd8 0b01100111#8) = .ok .xchgG ∧
    decode ⟨.x, .high⟩ (.cmd8 0b01110100#8) = .ok .xchgT ∧
    decode ⟨.x, .high⟩ (.cmd8 0b01000001#8) = .ok (.xchgN 0x41#8) ∧
    decode ⟨.x, .low⟩ (.cmd8 0b01100111#8) = .ok (.xchgD 0x67#8) ∧
    decode ⟨.y, .high⟩ (.sbw20 0b01100000000000000001#20) = .ok (.sbWr 1#2 2#2 0x0001#16) ∧
    decode ⟨.z, .low⟩ (.pin 1#1) = .ok .reset

/-- Decode and encode agree (R81, R83, R87): every event, at a cursor where it is one, with every operand. The
formats `SBW20` and `PIN` are the spec's decisions D9 and D2. -/
def Obligations.DecodeOfEncodeIsEvent : Prop :=
  ∀ (c : Cursor) (i : Instr), i.wellFormedAt c = true → decode c (encode i) = .ok i

/-- The other direction: a word that decodes is the encoding of what it decodes to, and that is an event at this
cursor; the only word that does not decode is the reset input at 0 (R38, R80: decision D2; log 11). -/
def Obligations.EncodeOfDecodeIsWord : Prop :=
  ∀ (c : Cursor) (w : PortWord),
    (∀ i, decode c w = .ok i → encode i = w ∧ i.wellFormedAt c = true) ∧
      (∀ e, decode c w = .error e → w = .pin 0#1)

/-! The step. -/

/-- A step runs the event its word decodes to, in the state in which that word has been taken from the ports. The
list of words is the model's own (log 1; its order is the interleaving of R58). The second clause, that the table
word placed by `withFetchWord` at (0,HIGH) runs as what `decodeTableWord` reads from it, is about the model's own
two functions: telling a table word's port by its width is its choice of log 9, placing it in front of the inbox
its choice of log 10. -/
def Obligations.StepRunsDecodedEvent : Prop :=
  (∀ (s : State) (w : PortWord) (rest : List PortWord) (i : Instr),
    s.inbox = w :: rest → decode s.cursor w = .ok i → step s = exec i (s.withInbox rest)) ∧
    (∀ (s : State) (nbits w : Nat) (i : Instr), s.cursor = Cursor.start → decodeTableWord nbits w = some i →
      step (s.withFetchWord nbits w) = exec i s)

/-- With nothing at the ports, or with the reset input at 0, a step changes nothing but that the word is taken:
the block has no halt (the model's choice, logs 1 and 11; R172 is the spec's inference). -/
def Obligations.StepWithoutEventChangesNothing : Prop :=
  (∀ s : State, s.inbox = [] → step s = .next s) ∧
    (∀ (s : State) (rest : List PortWord), s.inbox = .pin 0#1 :: rest → step s = .next (s.withInbox rest))

/-- R170: no exception, no error, no refusal: every event in every state, and so every run, answers a next state,
and there is no fault to raise. -/
def Obligations.NoEventFaultsOrIsRefused : Prop :=
  (∀ (i : Instr) (s : State), ∃ t, exec i s = .next t) ∧
    (∀ (n : Nat) (s : State), ∃ t, runFor n s = .next t) ∧ ¬ Nonempty Fault

/-! The exchange events. -/

/-- R110, R111, R112: a command at (0,HIGH) selects its triple and loads the high byte of the triple's X word,
in every snapshot mode; the master receives the old `TXD`. What the snapshot registers take is
`SnapshotRegistersCapture`. -/
def Obligations.SelectingCommandEffect : Prop :=
  ∀ s : State, s.cursor = ⟨.x, .high⟩ →
    ∀ q ∈ [(Instr.xchgA, 0x61#8, Sel.acc, s.sb.acc.x), (Instr.xchgG, 0x67#8, Sel.gyr, s.sb.gyr.x),
        (Instr.xchgT, 0x74#8, Sel.tmp, s.sb.tmp.x)],
      encode q.1 = .cmd8 q.2.1 ∧ decode s.cursor (.cmd8 q.2.1) = .ok q.1 ∧
        ∃ t, exec q.1 s = .next t ∧ t.outbox = s.outbox ++ [s.txd] ∧ t.engine.sel = q.2.2.1 ∧
          t.txd = q.2.2.2.extractLsb' 8 8 ∧ t.cursor = ⟨.x, .low⟩ ∧ t.sb = s.sb ∧ t.mode = s.mode ∧
          t.txdReset = s.txdReset ∧ t.inbox = s.inbox

/-- R113: any other byte at (0,HIGH) selects Null and loads zero; the previous selection is dropped and the
buffer is not read. -/
def Obligations.NullCommandEffect : Prop :=
  ∀ (s : State) (op : Byte), s.cursor = ⟨.x, .high⟩ → op ∉ [0x61#8, 0x67#8, 0x74#8] →
    decode s.cursor (.cmd8 op) = .ok (.xchgN op) ∧
      ∃ t, exec (.xchgN op) s = .next t ∧ t.outbox = s.outbox ++ [s.txd] ∧ t.engine.sel = .null ∧
        t.txd = 0x00#8 ∧ t.cursor = ⟨.x, .low⟩ ∧ t.sb = s.sb ∧ t.mode = s.mode ∧ t.txdReset = s.txdReset ∧
        t.inbox = s.inbox ∧ ∀ b, ∃ u, exec (.xchgN op) (s.withSb b) = .next u ∧ u = t.withSb b

/-- R114: away from (0,HIGH) an exchange sends the next byte of the frame and the byte received is not examined:
any other byte gives the same state. In mode NONE the byte is that of the word the buffer holds now; the byte in
the other modes is `SnapshotRegistersCapture`. -/
def Obligations.DataExchangeEffect : Prop :=
  ∀ (s : State) (rx : Byte), s.cursor ≠ ⟨.x, .high⟩ →
    decode s.cursor (.cmd8 rx) = .ok (.xchgD rx) ∧
      ∃ t, exec (.xchgD rx) s = .next t ∧ (∀ ry, exec (.xchgD ry) s = .next t) ∧
        t.outbox = s.outbox ++ [s.txd] ∧ t.engine.sel = s.engine.sel ∧
        (s.cursor.half = .high → t.cursor = ⟨s.cursor.slot, .low⟩ ∧
          (s.mode = .none → t.txd = (s.sb.read s.engine.sel s.cursor.slot).extractLsb' 8 8)) ∧
        (s.cursor.half = .low → t.cursor.half = .high ∧
          (slotCode t.cursor.slot).toNat = ((slotCode s.cursor.slot).toNat + 1) % 3 ∧
          (s.mode = .none → t.txd = (s.sb.read s.engine.sel s.cursor.slot).extractLsb' 0 8)) ∧
        t.sb = s.sb ∧ t.mode = s.mode ∧ t.txdReset = s.txdReset ∧ t.inbox = s.inbox

/-- The fetch by mode and what the snapshot registers take (R103, R134, R135, R136, R109), for every exchange
event at every cursor. Modes WORD and TRIPLE are the spec's decision D10. That an event means the exchange of its
byte also at a cursor where the opcode table gives that byte another name is the model's choice (log 8). -/
def Obligations.SnapshotRegistersCapture : Prop :=
  ∀ (s : State) (i : Instr) (rx : Byte) (sel : Sel), encode i = .cmd8 rx →
    sel = (if s.cursor = Cursor.start then decodeCommand rx else s.engine.sel) →
    ∃ t, exec i s = .next t ∧
      (s.engine.snapshot = .none →
        t.engine.snapshot = .none ∧ t.txd = byteOf s.cursor.half (s.sb.read sel s.cursor.slot)) ∧
      (∀ h, s.engine.snapshot = .word h → s.cursor.half = .high →
        t.engine.snapshot = .word (s.sb.read sel s.cursor.slot) ∧
          t.txd = highByte (s.sb.read sel s.cursor.slot)) ∧
      (∀ h, s.engine.snapshot = .word h → s.cursor.half = .low →
        t.engine.snapshot = .word h ∧ t.txd = lowByte h) ∧
      (∀ v, s.engine.snapshot = .triple v → s.cursor = Cursor.start →
        t.engine.snapshot = .triple ⟨s.sb.read sel .x, s.sb.read sel .y, s.sb.read sel .z⟩ ∧
          t.txd = highByte (s.sb.read sel .x)) ∧
      (∀ v, s.engine.snapshot = .triple v → s.cursor ≠ Cursor.start →
        t.engine.snapshot = .triple v ∧ t.txd = byteOf s.cursor.half (v.get s.cursor.slot))

/-- R25, R106: every exchange advances the cursor by one position of the ring, whatever the byte, the selection
and the buffer; no other event but RESET changes it. As a number the cursor counts modulo 6: that clause is the
sentence of R106 that the spec marks as its own inference, from R24. -/
def Obligations.CursorAdvancesByRing : Prop :=
  ∀ s t : State, step s = .next t →
    (∀ rx rest, s.inbox = .cmd8 rx :: rest →
      (s.cursor, t.cursor) ∈
        ([(⟨.x, .high⟩, ⟨.x, .low⟩), (⟨.x, .low⟩, ⟨.y, .high⟩), (⟨.y, .high⟩, ⟨.y, .low⟩),
          (⟨.y, .low⟩, ⟨.z, .high⟩), (⟨.z, .high⟩, ⟨.z, .low⟩), (⟨.z, .low⟩, ⟨.x, .high⟩)] :
          List (Cursor × Cursor)) ∧
        cursorPos t.cursor = (cursorPos s.cursor + 1) % 6) ∧
      (t.cursor ≠ s.cursor →
        (∃ rx rest, s.inbox = .cmd8 rx :: rest) ∨ ∃ rest, s.inbox = .pin 1#1 :: rest)

/-- R102: the selection is overwritten by the decode of the byte at every exchange that starts at (0,HIGH), Null
included, whatever it was; at any other exchange it stays and the byte is not examined; nothing else but RESET
changes it. -/
def Obligations.SelectionUpdatedOnlyAtCommandPosition : Prop :=
  (∀ (s : State) (rx : Byte) (rest : List PortWord), s.inbox = .cmd8 rx :: rest →
    ∃ t, step s = .next t ∧
      (s.cursor = Cursor.start → t.engine.sel = decodeCommand rx) ∧
      (s.cursor ≠ Cursor.start → t.engine.sel = s.engine.sel ∧
        ∀ ry, step (s.withInbox (.cmd8 ry :: rest)) = .next t)) ∧
    (∀ s t : State, step s = .next t → t.engine.sel ≠ s.engine.sel →
      (s.cursor = Cursor.start ∧ ∃ rx rest, s.inbox = .cmd8 rx :: rest) ∨ ∃ rest, s.inbox = .pin 1#1 :: rest)

/-! The sample buffer. -/

/-- SB.WR at each of the nine addresses of R51 writes that word and nothing else (R130). The address map and
word atomicity are the spec's decisions D9 and D8. -/
def Obligations.WordWriteHitsItsAddress : Prop :=
  ∀ (s : State) (d : Word),
    exec (.sbWr 0#2 0#2 d) s = .next { s with sb.acc.x := d } ∧
      exec (.sbWr 0#2 1#2 d) s = .next { s with sb.acc.y := d } ∧
      exec (.sbWr 0#2 2#2 d) s = .next { s with sb.acc.z := d } ∧
      exec (.sbWr 1#2 0#2 d) s = .next { s with sb.gyr.x := d } ∧
      exec (.sbWr 1#2 1#2 d) s = .next { s with sb.gyr.y := d } ∧
      exec (.sbWr 1#2 2#2 d) s = .next { s with sb.gyr.z := d } ∧
      exec (.sbWr 2#2 0#2 d) s = .next { s with sb.tmp.x := d } ∧
      exec (.sbWr 2#2 1#2 d) s = .next { s with sb.tmp.y := d } ∧
      exec (.sbWr 2#2 2#2 d) s = .next { s with sb.tmp.z := d }

/-- A write to any of the seven reserved addresses changes no state, so the Null triple stays zero (R131, R53:
decision D9). -/
def Obligations.ReservedWriteChangesNothing : Prop :=
  ∀ (s : State) (t r : BitVec 2) (d : Word), (t = 3#2 ∨ r = 3#2) →
    exec (.sbWr t r d) s = .next s ∧ ∀ u, s.sb.read .null u = 0#16

/-- R133: a read of a word gives the data of the latest write to it, or what it held before any; Null reads as
zero whatever is written. No exchange and no reset in between matters. -/
def Obligations.BufferReadsLatestWrite : Prop :=
  ∀ (s : State) (l : List PortWord), ∃ u, Drains s l u ∧
    (∀ r, u.sb.read .null r = 0x0000#16) ∧
      ∀ t r, t ≠ .null → u.sb.read t r = (lastWritten t r l).getD (s.sb.read t r)

/-- R23: the only event that writes the buffer is SB.WR, and the only reader is the engine: a step that is no
exchange does to every other part of the state the same whatever the buffer holds. -/
def Obligations.BufferWrittenAndReadOnlyByItsPorts : Prop :=
  (∀ s t : State, step s = .next t → t.sb ≠ s.sb → ∃ w rest, s.inbox = .sbw20 w :: rest) ∧
    (∀ (s : State) (b : SampleBuffer), (∀ rx rest, s.inbox ≠ .cmd8 rx :: rest) →
      ∃ t u, step s = .next t ∧ step (s.withSb b) = .next u ∧ t = u.withSb t.sb)

/-- R134, mode NONE: the word is read afresh at every invocation, so with a write between the two halves of a
word the master receives `{old[15:8], new[7:0]}`. -/
def Obligations.ModeNoneRereadsTheWord : Prop :=
  (∀ (s : State) (rx : Byte), s.mode = .none →
    ∃ t, Drains s [.cmd8 rx] t ∧ t.engine.snapshot = .none ∧
      t.txd = byteOf s.cursor.half (s.sb.read t.engine.sel s.cursor.slot)) ∧
    ∀ (s : State) (rx ry : Byte) (sel : Sel) (new : Word), s.mode = .none → s.cursor.half = .high →
      sel = (if s.cursor = Cursor.start then decodeCommand rx else s.engine.sel) → sel ≠ .null →
      ∃ t, Drains s [.cmd8 rx, writeWord sel s.cursor.slot new, .cmd8 ry] t ∧
        t.stream = s.stream ++ [highByte (s.sb.read sel s.cursor.slot), lowByte new]

/-- Mode WORD: whatever the Sampler writes between them, the two bytes of a value are the two halves of the one
word the buffer held at the HIGH invocation (R135: decision D10). -/
def Obligations.ModeWordSendsWholeWords : Prop :=
  ∀ (s : State) (rx ry : Byte) (ws : List PortWord) (sel : Sel), s.mode = .word → s.cursor.half = .high →
    sel = (if s.cursor = Cursor.start then decodeCommand rx else s.engine.sel) →
    (∀ w ∈ ws, isWrite w = true) →
    ∃ t, Drains s (.cmd8 rx :: ws ++ [.cmd8 ry]) t ∧
      t.stream = s.stream ++ [highByte (s.sb.read sel s.cursor.slot), lowByte (s.sb.read sel s.cursor.slot)]

/-- Mode TRIPLE: whatever the Sampler writes during the cycle, all six bytes of a frame are halves of the three
words the buffer held at the frame's first invocation (R136: decision D10). -/
def Obligations.ModeTripleSendsWholeFrames : Prop :=
  ∀ (s : State) (c : Byte) (l : List PortWord), s.mode = .triple → s.cursor = Cursor.start → IsCycle c l →
    ∃ t, Drains s l t ∧ t.stream = s.stream ++ frameBytes (s.sb.selected (decodeCommand c)) ∧
      t.cursor = Cursor.start ∧ t.engine.sel = decodeCommand c ∧
      t.engine.snapshot = .triple (s.sb.selected (decodeCommand c))

/-! Whole cycles. -/

/-- In every mode, six exchanges from (0,HIGH) with no write to the selected triple among them send that triple's
frame, X high to Z low, and end at (0,HIGH) with the command's selection latched (R84, and R115, which the spec
marks as its inference). -/
def Obligations.OneCycleSendsTheFrame : Prop :=
  ∀ (s : State) (c : Byte) (l : List PortWord), s.cursor = Cursor.start → IsCycle c l →
    NoWriteTo (decodeCommand c) l →
    ∃ t, Drains s l t ∧
      t.stream = s.stream ++ frameBytes (s.sb.selected (decodeCommand c)) ∧
      t.cursor = Cursor.start ∧ t.engine.sel = decodeCommand c

/-- R88: every byte outside the three commands is defined, and all of them alike: at (0,HIGH) it is XCHG.N, two
such bytes give the same state, and a cycle that starts with one sends six zeros, in every mode and whatever the
Sampler writes. -/
def Obligations.UnknownCommandSendsZeros : Prop :=
  ∀ c : Byte, c ∉ [0x61#8, 0x67#8, 0x74#8] →
    decode Cursor.start (.cmd8 c) = .ok (.xchgN c) ∧
      (∀ (s : State) (d : Byte), s.cursor = Cursor.start → d ∉ [0x61#8, 0x67#8, 0x74#8] →
        exec (.xchgN c) s = exec (.xchgN d) s) ∧
      ∀ (s : State) (l : List PortWord), s.cursor = Cursor.start → IsCycle c l →
        ∃ t, Drains s l t ∧ t.stream = s.stream ++ [0#8, 0#8, 0#8, 0#8, 0#8, 0#8] ∧
          t.cursor = Cursor.start ∧ t.engine.sel = .null

/-- R89: the bytes of the five exchanges of a cycle that do not start at (0,HIGH) have no effect on any state: two
cycles with the same command and the same writes at the same places, and any data bytes, end in the same state.
A write to a reserved address is ignored. -/
def Obligations.DataPositionsIgnoreTheByte : Prop :=
  (∀ (s : State) (c : Byte) (l m : List PortWord), s.cursor = Cursor.start → NoReset l → NoReset m →
    exchangeCount l = 5 →
    List.Forall₂ (fun w v => w = v ∨ (isExchange w = true ∧ isExchange v = true)) l m →
    ∃ t, Drains s (.cmd8 c :: l) t ∧ Drains s (.cmd8 c :: m) t) ∧
    ∀ (s : State) (t r : BitVec 2) (d : Word), (t = 3#2 ∨ r = 3#2) → exec (.sbWr t r d) s = .next s

/-- In every mode, two cycles with the same command send the same six bytes if nothing from the first invocation
of one to the last of the other writes the selected triple; whole cycles of any other kind and writes to other
triples may lie between (R118, which the spec marks as its inference). -/
def Obligations.RepeatedCommandRepeatsTheFrame : Prop :=
  ∀ (s : State) (c : Byte) (l mid m : List PortWord), s.cursor = Cursor.start → IsCycle c l → IsCycle c m →
    NoReset mid → exchangeCount mid % 6 = 0 → NoWriteTo (decodeCommand c) (l ++ mid ++ m) →
    ∃ t f g, Drains s (l ++ mid ++ m) t ∧ t.stream = s.stream ++ f ++ g ++ f ∧ f.length = 6 ∧
      g.length = exchangeCount mid

/-- The three modes decode, select and step the cursor alike, always, and send identical frames when nothing
writes the selected triple during the cycle (R138, which the spec marks as its inference; log 19). -/
def Obligations.SnapshotModesAgree : Prop :=
  (∀ (s u : State) (l : List PortWord), u = s.withEngine { s.engine with snapshot := u.engine.snapshot } →
    ∃ t v, Drains s l t ∧ Drains u l v ∧ t.engine.sel = v.engine.sel ∧ t.cursor = v.cursor ∧ t.sb = v.sb) ∧
    ∀ (s u : State) (c : Byte) (l : List PortWord),
      u = s.withEngine { s.engine with snapshot := u.engine.snapshot } → s.cursor = Cursor.start →
      IsCycle c l → NoWriteTo (decodeCommand c) l →
      ∃ t v, Drains s l t ∧ Drains u l v ∧ t.stream = v.stream

/-! The wire. -/

/-- Every byte the master receives is the one the previous invocation produced, and the first after RESET is
`TXD_RESET` (R100, R119, R85: decision D5 and the spec's inference). Here `u` stands just after an exchange, so
its `TXD` is the byte that exchange produced. -/
def Obligations.MasterReceivesOneExchangeLate : Prop :=
  (∀ (s : State) (l m : List PortWord) (rx : Byte), NoReset m → 1 ≤ exchangeCount m →
    ∃ u t, Drains s (l ++ [.cmd8 rx]) u ∧ Drains s (l ++ .cmd8 rx :: m) t ∧
      t.outbox[s.outbox.length + exchangeCount l + 1]? = some u.txd) ∧
    ∀ (s : State) (m : List PortWord), NoReset m → 1 ≤ exchangeCount m →
      ∃ t, Drains s (.pin 1#1 :: m) t ∧ t.outbox[s.outbox.length]? = some s.txdReset

/-- With no RESET among the events the cursor counts exchanges modulo 6, and nothing the master sends or the
Sampler writes can change its phase: there is no resynchronisation (R122 and R213: the spec's inference and its
decision D14). -/
def Obligations.CursorCountsExchanges : Prop :=
  ∀ (s : State) (l : List PortWord), NoReset l →
    ∃ t, Drains s l t ∧ cursorPos t.cursor = (cursorPos s.cursor + exchangeCount l) % 6

/-- From any state at all: reset, then a refresh of a triple, then its FRAME and a FLUSH, and what the master
receives is `TXD_RESET` and six bytes that it assembles to the very words the Sampler wrote, in every mode
(R85, R92, R105, R210: decisions D5, D18, D19). -/
def Obligations.MasterReadsWhatSamplerWrote : Prop :=
  ∀ (s : State) (v : Triple), ∀ q ∈ [(Sel.acc, 0x61#8), (Sel.gyr, 0x67#8), (Sel.tmp, 0x74#8)],
    ∃ t received, Drains s (.pin 1#1 :: macroRefresh q.1 v ++ macroFrame q.2 ++ macroFlush) t ∧
      t.outbox = s.outbox ++ received ∧ received.length = 7 ∧ received.head? = some s.txdReset ∧
      assembleFrame (frameAt 0 received) = some v

/-- Splitting a word and recombining it gives it back, for all 65 536 patterns, also as a signed number built in a
wider register (R105). That the signed reading is two's complement is the spec's general knowledge G1 (R11), taken
by the model in log 16. -/
def Obligations.ByteSplitRoundTrip : Prop :=
  ∀ v : Word, assemble (v.extractLsb' 8 8) (v.extractLsb' 0 8) = v ∧ signedValue v = v.toInt ∧
    ((v.extractLsb' 8 8).toNat * 256 + (v.extractLsb' 0 8).toNat : Int) -
      (if (v.extractLsb' 8 8).getLsbD 7 then 65536 else 0) = signedValue v

/-! Reset. -/

/-- RESET in any state: the engine state, `TXD`, and the snapshot register where there is one; the buffer and
everything else stay (R200: decision D19, values D4, D6, D10; logs 3, 7). -/
def Obligations.ResetEffect : Prop :=
  ∀ s : State, ∃ t, exec .reset s = .next t ∧ t.cursor = ⟨.x, .high⟩ ∧ t.engine.sel = .null ∧
    t.txd = s.txdReset ∧ t.mode = s.mode ∧ (∀ h, t.engine.snapshot = .word h → h = 0x0000#16) ∧
    (∀ v, t.engine.snapshot = .triple v → v = ⟨0x0000#16, 0x0000#16, 0x0000#16⟩) ∧
    t.sb = s.sb ∧ t.txdReset = s.txdReset ∧ t.inbox = s.inbox ∧ t.outbox = s.outbox ∧ exec .reset t = .next t

/-- The state after reset: cursor (0,HIGH) and Null (R36: decision D4), the default mode NONE (log 5), `TXD` at
the free value `TXD_RESET` (D6; log 3) and every word of the buffer at the free value `SB_RESET` of its address
(D7; log 4). The mode and the free values are the model's choice; nothing here says what a free value is. -/
def Obligations.ResetStateValues : Prop :=
  State.reset.cursor = ⟨.x, .high⟩ ∧ State.reset.engine.sel = .null ∧ State.reset.mode = .none ∧
    State.reset.txd = Config.txdReset ∧ State.reset.txdReset = Config.txdReset ∧
    (∀ t r, t ≠ .null → State.reset.sb.read t r = Config.sbReset (readAddress t r)) ∧
    State.reset.inbox = [] ∧ State.reset.outbox = [] ∧ exec .reset State.reset = .next State.reset

/-- A later RESET is a power-up with the buffer as it stands: its run is a run from power-up (R202, which the
spec marks as its inference). -/
def Obligations.ResetIsPowerUpWithThisBuffer : Prop :=
  ∀ (s : State) (l : List PortWord), ∃ t u, Drains s (.pin 1#1 :: l) t ∧
    Drains (State.powerUp s.mode s.txdReset s.sb) l u ∧ t.engine = u.engine ∧ t.sb = u.sb ∧ t.txd = u.txd ∧
    t.outbox = s.outbox ++ u.outbox

/-- The values `SEL`, `HOLD` and `SNAP` have when the cursor stands at (0,HIGH), as it does after RESET, cannot be
observed: two runs that differ only in them give the master the same bytes, for ever (R37, which the spec marks
as its inference; log 7). -/
def Obligations.SelectionAndSnapshotUnobservableAtCommandPosition : Prop :=
  ∀ s u : State, s.cursor = Cursor.start → u = s.withEngine u.engine → u.cursor = Cursor.start →
    u.mode = s.mode →
    ∀ n, ∃ t v, runFor n s = .next t ∧ runFor n u = .next v ∧ t.outbox = v.outbox ∧ t.txd = v.txd ∧
      t.sb = v.sb ∧ t.cursor = v.cursor

/-! Invariants. -/

/-- Every step keeps the invariant of the output latch (R135, R136, R116): inside a cycle the latch holds the byte
of the preceding position of the captured word or triple, and zero when Null is selected. -/
def Obligations.StepKeepsLatchInvariant : Prop :=
  ∀ s t : State, LatchInv s → step s = .next t → LatchInv t

/-- The invariant of the output latch holds after reset. -/
def Obligations.LatchInvariantAtReset : Prop := LatchInv State.reset

/-- Every step keeps the parameters of the machine: the snapshot mode and `TXD_RESET` are fixed for a run (R6,
U6; held in the state by the model, logs 3 and 5). -/
def Obligations.StepKeepsParameters : Prop :=
  ∀ s t : State, step s = .next t → t.mode = s.mode ∧ t.txdReset = s.txdReset

/-! The ports and the Sampler. -/

/-- One sample of the ports, with every combination of its strobes. While `rst` is 1 nothing but RESET happens
(R176, R201: decision D19); that the sample is then exactly RESET, so that the master receives no byte from an
exchange strobed in it, is the model's choice (log 12, unsafe: the spec leaves that byte unspecified, U5). With one
strobe up the sample is that exchange or that write, and with none it is nothing (R38: decision D2). Coincident
strobes may be taken in either order, which differ only in whether the produced byte is of the old or of the new
word (R61: decision D11; log 15). -/
def Obligations.PortSampleOverrideAndCoincidence : Prop :=
  (∀ (s : State) (p : PortSample) (first : Bool), p.rst = true →
    ∃ t, Drains s (p.words first) t ∧ exec .reset (s.withInbox []) = .next t) ∧
    (∀ (s : State) (p : PortSample), p.rst = false → p.xchgDone = true → p.sbWe = true →
      ∃ t u, Drains s (p.words false) t ∧ Drains s (p.words true) u ∧ t.sb = u.sb ∧
        t.outbox = u.outbox ∧ t.engine.sel = u.engine.sel ∧ t.cursor = u.cursor ∧
        (s.mode = .none →
          t.txd = byteOf s.cursor.half (s.sb.read t.engine.sel s.cursor.slot) ∧
            u.txd = byteOf s.cursor.half (u.sb.read u.engine.sel s.cursor.slot))) ∧
    ∀ (s : State) (p : PortSample) (first : Bool), p.rst = false →
      (p.xchgDone = true → p.sbWe = false →
        ∃ i t, decode s.cursor (.cmd8 p.rxData) = .ok i ∧ Drains s (p.words first) t ∧
          exec i (s.withInbox []) = .next t) ∧
      (p.xchgDone = false → p.sbWe = true →
        ∃ t, Drains s (p.words first) t ∧
          exec (.sbWr (p.sbAddr.extractLsb' 2 2) (p.sbAddr.extractLsb' 0 2) p.sbWdata) (s.withInbox []) = .next t) ∧
      (p.xchgDone = false → p.sbWe = false → Drains s (p.words first) (s.withInbox []))

/-- The reference temperature conversion truncates `(t + 12461) / 340` toward zero, never loses high-order bits,
and lies in −59 .. 133 (R154: decision D16; log 16). -/
def Obligations.TemperatureConversionTruncates : Prop :=
  ∀ t : Word, -59 ≤ (tempConv t).toInt ∧ (tempConv t).toInt ≤ 133 ∧
    (0 ≤ t.toInt + 12461 → 340 * (tempConv t).toInt ≤ t.toInt + 12461 ∧
      t.toInt + 12461 < 340 * (tempConv t).toInt + 340) ∧
    (t.toInt + 12461 < 0 → t.toInt + 12461 ≤ 340 * (tempConv t).toInt ∧
      340 * (tempConv t).toInt - 340 < t.toInt + 12461)

/-- After a refresh, its writes in any order and any other events among them, each triple is as it was or holds
what was acquired for it, so one whose acquisition failed is as it was; the Temperature triple holds the converted
value three times (R156). A refresh whose three acquisitions succeeded has stored all three. While the three
Temperature words are one word, as after a completed refresh, a Temperature frame is `h, l, h, l, h, l`.
The axis order, the any-order and the any-subset reading are the spec's decision D15, taken in log 17. -/
def Obligations.RefreshReplicatesTemperature : Prop :=
  ∀ (conv : Word → Word) (r : RawReading) (s : State) (l : List PortWord), IsRefresh conv r (l.filter isWrite) →
    ∃ t, Drains s l t ∧
      ((t.sb.acc = s.sb.acc ∨ ∃ a, r.accel = some a ∧ t.sb.acc = a.axes) ∧
        (t.sb.gyr = s.sb.gyr ∨ ∃ g, r.gyro = some g ∧ t.sb.gyr = g.axes) ∧
        (t.sb.tmp = s.sb.tmp ∨ ∃ b0 b1, r.temp = some (b0, b1) ∧
          t.sb.tmp = ⟨conv (b0 ++ b1), conv (b0 ++ b1), conv (b0 ++ b1)⟩)) ∧
      (∀ a g b0 b1, r.accel = some a → r.gyro = some g → r.temp = some (b0, b1) →
        t.sb = ⟨a.axes, g.axes, ⟨conv (b0 ++ b1), conv (b0 ++ b1), conv (b0 ++ b1)⟩⟩) ∧
      ∀ (w : Word) (m : List PortWord), t.sb.tmp = ⟨w, w, w⟩ → t.cursor = Cursor.start → IsCycle 0x74#8 m →
        NoWriteTo .tmp m →
        ∃ u, Drains s (l ++ m) u ∧
          u.stream = t.stream ++ [highByte w, lowByte w, highByte w, lowByte w, highByte w, lowByte w]

/-- A refresh in which an acquisition failed may store any of the triples it did acquire and leave any others
stale: for every choice of triples some refresh stores exactly the acquired ones among them (R158: decision D15,
taken in log 17). -/
def Obligations.FailedRefreshStoresAnySubset : Prop :=
  ∀ (conv : Word → Word) (r : RawReading) (s : State) (acc gyr tmp : Bool),
    (r.accel = none ∨ r.gyro = none ∨ r.temp = none) →
    ∃ ws t, IsRefresh conv r ws ∧ Drains s ws t ∧
      t.sb.acc = (match acc, r.accel with | true, some a => a.axes | _, _ => s.sb.acc) ∧
      t.sb.gyr = (match gyr, r.gyro with | true, some g => g.axes | _, _ => s.sb.gyr) ∧
      t.sb.tmp = (match tmp, r.temp with
        | true, some (b0, b1) => ⟨conv (b0 ++ b1), conv (b0 ++ b1), conv (b0 ++ b1)⟩
        | _, _ => s.sb.tmp) ∧
      t.engine = s.engine ∧ t.txd = s.txd ∧ t.outbox = s.outbox
end

