-- ==== Sys2Proof/Laws/Decode.lean ====
section
/-! SUPPORT. The decoder, the encoder and the bit codes: what each answers, case by case. -/

namespace Sys2Proof

theorem decodeCommand_accel : decodeCommand 0x61#8 = .acc := rfl
theorem decodeCommand_gyro : decodeCommand 0x67#8 = .gyr := rfl
theorem decodeCommand_temp : decodeCommand 0x74#8 = .tmp := rfl

theorem decodeCommand_eq_acc_iff {rx : Byte} : decodeCommand rx = .acc ↔ rx = 0x61#8 := by
  unfold decodeCommand; split_ifs <;> simp_all

theorem decodeCommand_eq_gyr_iff {rx : Byte} : decodeCommand rx = .gyr ↔ rx = 0x67#8 := by
  unfold decodeCommand; split_ifs <;> simp_all

theorem decodeCommand_eq_tmp_iff {rx : Byte} : decodeCommand rx = .tmp ↔ rx = 0x74#8 := by
  unfold decodeCommand; split_ifs <;> simp_all

theorem decodeCommand_eq_null_iff {rx : Byte} :
    decodeCommand rx = .null ↔ rx ≠ 0x61#8 ∧ rx ≠ 0x67#8 ∧ rx ≠ 0x74#8 := by
  unfold decodeCommand; split_ifs <;> simp_all

theorem commandPosition_iff {c : Cursor} : commandPosition c = true ↔ c = Cursor.start := by
  obtain ⟨s, h⟩ := c
  cases s <;> cases h <;> simp [commandPosition, Cursor.start]

@[simp] theorem Cursor.start_slot : Cursor.start.slot = .x := rfl

@[simp] theorem Cursor.start_half : Cursor.start.half = .high := rfl

@[simp] theorem commandPosition_start : commandPosition Cursor.start = true := rfl

theorem commandPosition_of_ne {c : Cursor} (h : c ≠ Cursor.start) : commandPosition c = false := by
  exact Bool.eq_false_iff.2 (mt commandPosition_iff.1 h)

theorem decodeExchange_start (rx : Byte) : decodeExchange Cursor.start rx = decodeSelecting rx := rfl

theorem decodeExchange_of_ne {c : Cursor} (h : c ≠ Cursor.start) (rx : Byte) :
    decodeExchange c rx = .xchgD rx := by
  simp [decodeExchange, commandPosition_of_ne h]

/-- Whatever an exchanged byte decodes to, that event's own byte is the byte exchanged. -/
theorem encode_decodeExchange (c : Cursor) (rx : Byte) : encode (decodeExchange c rx) = .cmd8 rx := by
  unfold decodeExchange decodeSelecting decodeCommand
  split_ifs <;> simp_all [encode]

/-- The fields of a write transaction put together again (R83). -/
theorem write_fields (w : BitVec 20) :
    ((w.extractLsb' 18 2 ++ w.extractLsb' 16 2 : BitVec 4) ++ w.extractLsb' 0 16 : BitVec 20) = w := by
  ext i hi
  simp only [BitVec.getElem_append, BitVec.getElem_extractLsb']
  split_ifs with h1 h2
  · rw [Nat.zero_add]; exact BitVec.getLsbD_eq_getElem hi
  · rw [show 16 + (i - 16) = i by omega]; exact BitVec.getLsbD_eq_getElem hi
  · rw [show 18 + (i - 16 - 2) = i by omega]; exact BitVec.getLsbD_eq_getElem hi

/-- The fields read back from a write transaction that was put together (R83). -/
theorem write_fields_of_append (t s : BitVec 2) (d : Word) :
    (((t ++ s : BitVec 4) ++ d : BitVec 20).extractLsb' 18 2 = t) ∧
      (((t ++ s : BitVec 4) ++ d : BitVec 20).extractLsb' 16 2 = s) ∧
      (((t ++ s : BitVec 4) ++ d : BitVec 20).extractLsb' 0 16 = d) := by
  refine ⟨?_, ?_, ?_⟩ <;> ext i hi <;> simp only [BitVec.getElem_extractLsb', BitVec.getLsbD_append]
  · rw [if_neg (by omega), if_neg (by omega), show 18 + i - 16 - 2 = i by omega]
    exact BitVec.getLsbD_eq_getElem hi
  · rw [if_neg (by omega), if_pos (by omega), show 16 + i - 16 = i by omega]
    exact BitVec.getLsbD_eq_getElem hi
  · rw [if_pos (by omega), Nat.zero_add]
    exact BitVec.getLsbD_eq_getElem hi

theorem decodeWrite_append (t s : BitVec 2) (d : Word) :
    decodeWrite ((t ++ s : BitVec 4) ++ d) = .sbWr t s d := by
  obtain ⟨h1, h2, h3⟩ := write_fields_of_append t s d
  rw [decodeWrite, h1, h2, h3]

namespace Machine

@[simp] theorem selOfCode_selCode (t : Sel) : selOfCode (selCode t) = t := by cases t <;> rfl

@[simp] theorem slotOfCode_slotCode (s : Slot) : slotOfCode (slotCode s) = some s := by cases s <;> rfl

theorem selCode_injective {t u : Sel} (h : selCode t = selCode u) : t = u := by
  simpa using congrArg selOfCode h

/-- The two fields of a word address (R51). -/
theorem wordAddress_fields (t s : BitVec 2) :
    (wordAddress t s).extractLsb' 2 2 = t ∧ (wordAddress t s).extractLsb' 0 2 = s := by
  revert t s; decide

/-- The address of a word names that word; the Null triple has no words (R51, R53). -/
theorem addressedWord_readAddress {t : Sel} (h : t ≠ .null) (s : Slot) :
    addressedWord (readAddress t s) = some (t, s) := by
  cases t <;> cases s <;> first | rfl | exact absurd rfl h

/-- No address names a word of the Null triple (R51, R53). -/
theorem addressedWord_ne_null {a : BitVec 4} {t : Sel} {s : Slot} (h : addressedWord a = some (t, s)) :
    t ≠ .null ∧ a = readAddress t s := by
  revert a
  cases t <;> cases s <;> decide

/-- A reserved address names nothing (R53, R131). -/
theorem addressedWord_reserved {t s : BitVec 2} (h : t = 3#2 ∨ s = 3#2) :
    addressedWord (wordAddress t s) = none := by
  revert t s; decide

theorem cursorPos_lt (c : Cursor) : cursorPos c < 6 := by
  obtain ⟨s, h⟩ := c
  cases s <;> cases h <;> decide

/-- A word address is bits 19:16 of the write transaction (R83). -/
theorem wordAddress_of_write (w : BitVec 20) :
    wordAddress (w.extractLsb' 18 2) (w.extractLsb' 16 2) = w.extractLsb' 16 4 := by
  unfold wordAddress
  ext i hi
  simp only [BitVec.getElem_append, BitVec.getElem_extractLsb']
  split_ifs
  · rfl
  · congr 1; omega

/-- The address and the data of a write transaction put together from them (R83). -/
theorem write_of_address (a : BitVec 4) (d : Word) :
    (a ++ d : BitVec 20).extractLsb' 16 4 = a ∧ (a ++ d : BitVec 20).extractLsb' 0 16 = d := by
  refine ⟨?_, ?_⟩ <;> ext i hi <;> simp only [BitVec.getElem_extractLsb', BitVec.getLsbD_append]
  · rw [if_neg (by omega), show 16 + i - 16 = i by omega]
    exact BitVec.getLsbD_eq_getElem hi
  · rw [if_pos (by omega), Nat.zero_add]
    exact BitVec.getLsbD_eq_getElem hi

theorem cursorPos_injective {c d : Cursor} (h : cursorPos c = cursorPos d) : c = d := by
  obtain ⟨s, a⟩ := c
  obtain ⟨t, b⟩ := d
  revert h
  cases s <;> cases a <;> cases t <;> cases b <;> decide

theorem cursorPos_eq_zero_iff {c : Cursor} : cursorPos c = 0 ↔ c = Cursor.start :=
  ⟨fun h => cursorPos_injective (d := Cursor.start) h, by rintro rfl; rfl⟩

end Machine

end Sys2Proof
end

