-- ==== Sys2Proof/Laws/State.lean ====
section
/-! SUPPORT. One lemma per field per update of the state, true by unfolding, so that no later proof unfolds a
record update. -/

namespace Sys2Proof.Machine

@[simp] theorem State.withSb_sb (s : State) (b : SampleBuffer) : (s.withSb b).sb = b := rfl
@[simp] theorem State.withSb_engine (s : State) (b : SampleBuffer) : (s.withSb b).engine = s.engine := rfl
@[simp] theorem State.withSb_txd (s : State) (b : SampleBuffer) : (s.withSb b).txd = s.txd := rfl
@[simp] theorem State.withSb_txdReset (s : State) (b : SampleBuffer) : (s.withSb b).txdReset = s.txdReset := rfl
@[simp] theorem State.withSb_inbox (s : State) (b : SampleBuffer) : (s.withSb b).inbox = s.inbox := rfl
@[simp] theorem State.withSb_outbox (s : State) (b : SampleBuffer) : (s.withSb b).outbox = s.outbox := rfl

@[simp] theorem State.withEngine_sb (s : State) (e : Engine) : (s.withEngine e).sb = s.sb := rfl
@[simp] theorem State.withEngine_engine (s : State) (e : Engine) : (s.withEngine e).engine = e := rfl
@[simp] theorem State.withEngine_txd (s : State) (e : Engine) : (s.withEngine e).txd = s.txd := rfl
@[simp] theorem State.withEngine_txdReset (s : State) (e : Engine) : (s.withEngine e).txdReset = s.txdReset := rfl
@[simp] theorem State.withEngine_inbox (s : State) (e : Engine) : (s.withEngine e).inbox = s.inbox := rfl
@[simp] theorem State.withEngine_outbox (s : State) (e : Engine) : (s.withEngine e).outbox = s.outbox := rfl

@[simp] theorem State.withTxd_sb (s : State) (b : Byte) : (s.withTxd b).sb = s.sb := rfl
@[simp] theorem State.withTxd_engine (s : State) (b : Byte) : (s.withTxd b).engine = s.engine := rfl
@[simp] theorem State.withTxd_txd (s : State) (b : Byte) : (s.withTxd b).txd = b := rfl
@[simp] theorem State.withTxd_txdReset (s : State) (b : Byte) : (s.withTxd b).txdReset = s.txdReset := rfl
@[simp] theorem State.withTxd_inbox (s : State) (b : Byte) : (s.withTxd b).inbox = s.inbox := rfl
@[simp] theorem State.withTxd_outbox (s : State) (b : Byte) : (s.withTxd b).outbox = s.outbox := rfl

@[simp] theorem State.withInbox_sb (s : State) (l : List PortWord) : (s.withInbox l).sb = s.sb := rfl
@[simp] theorem State.withInbox_engine (s : State) (l : List PortWord) : (s.withInbox l).engine = s.engine := rfl
@[simp] theorem State.withInbox_txd (s : State) (l : List PortWord) : (s.withInbox l).txd = s.txd := rfl
@[simp] theorem State.withInbox_txdReset (s : State) (l : List PortWord) : (s.withInbox l).txdReset = s.txdReset := rfl
@[simp] theorem State.withInbox_inbox (s : State) (l : List PortWord) : (s.withInbox l).inbox = l := rfl
@[simp] theorem State.withInbox_outbox (s : State) (l : List PortWord) : (s.withInbox l).outbox = s.outbox := rfl

@[simp] theorem State.receive_sb (s : State) (b : Byte) : (s.receive b).sb = s.sb := rfl
@[simp] theorem State.receive_engine (s : State) (b : Byte) : (s.receive b).engine = s.engine := rfl
@[simp] theorem State.receive_txd (s : State) (b : Byte) : (s.receive b).txd = s.txd := rfl
@[simp] theorem State.receive_txdReset (s : State) (b : Byte) : (s.receive b).txdReset = s.txdReset := rfl
@[simp] theorem State.receive_inbox (s : State) (b : Byte) : (s.receive b).inbox = s.inbox := rfl
@[simp] theorem State.receive_outbox (s : State) (b : Byte) : (s.receive b).outbox = s.outbox ++ [b] := rfl

/-- One spelling for the cursor of a state. -/
@[simp] theorem State.cursor_eq (s : State) : s.cursor = s.engine.cursor := rfl

/-- One spelling for the mode of a state. -/
@[simp] theorem State.mode_eq (s : State) : s.mode = s.engine.snapshot.mode := rfl

@[simp] theorem State.withInbox_self (s : State) : s.withInbox s.inbox = s := rfl

@[simp] theorem State.withInbox_withInbox (s : State) (l m : List PortWord) :
    (s.withInbox l).withInbox m = s.withInbox m := rfl

/-- Two states are equal when their fields are. -/
theorem State.ext_fields {s t : State} (hsb : s.sb = t.sb) (he : s.engine = t.engine) (htxd : s.txd = t.txd)
    (hu : s.txdReset = t.txdReset) (hi : s.inbox = t.inbox) (ho : s.outbox = t.outbox) : s = t := by
  cases s; cases t; simp_all

/-- Power-up with the spec's default mode and the open values is the reset state (R36, R202). -/
theorem State.reset_eq_powerUp :
    State.reset = State.powerUp Config.snapshotMode Config.txdReset State.reset.sb := rfl

end Sys2Proof.Machine
end

