-- ==== Sys2Proof/Laws/Ops.lean ====
section
/-! SUPPORT. The shared operations: for each, what it can do, said once. -/

namespace Sys2Proof.Machine

/-! The buffer. -/

@[simp] theorem Triple.get_set_same (v : Triple) (s : Slot) (d : Word) : (v.set s d).get s = d := by
  cases s <;> rfl

theorem Triple.get_set_of_ne (v : Triple) {s u : Slot} (h : u ≠ s) (d : Word) :
    (v.set s d).get u = v.get u := by
  cases s <;> cases u <;> first | rfl | exact absurd rfl h

@[simp] theorem SampleBuffer.read_null (b : SampleBuffer) (s : Slot) : b.read .null s = 0#16 := by
  cases s <;> rfl

/-- The three words read from a triple are that triple. -/
theorem SampleBuffer.read_triple (b : SampleBuffer) (t : Sel) :
    (⟨b.read t .x, b.read t .y, b.read t .z⟩ : Triple) = b.selected t := rfl

theorem SampleBuffer.read_replace (b : SampleBuffer) {t : Sel} (h : t ≠ .null) (s : Slot) (d : Word)
    (u : Sel) (r : Slot) :
    (b.replace t s d).read u r = if u = t ∧ r = s then d else b.read u r := by
  cases t <;> cases s <;> cases u <;> cases r <;> first | rfl | exact absurd rfl h

/-- Reading after a write (R130, R133): the addressed word is the data, every other read is as before. -/
theorem SampleBuffer.read_write (b : SampleBuffer) (a : BitVec 4) (d : Word) (u : Sel) (r : Slot) :
    (b.write a d).read u r = if addressedWord a = some (u, r) then d else b.read u r := by
  unfold SampleBuffer.write
  split
  · next h => simp [h]
  · next t s h =>
    rw [SampleBuffer.read_replace _ (addressedWord_ne_null h).1, h]
    simp only [Option.some.injEq, Prod.mk.injEq]
    by_cases h' : u = t ∧ r = s
    · simp [h'.1, h'.2]
    · simp only [h', if_false]
      rw [if_neg]
      rintro ⟨rfl, rfl⟩
      exact h' ⟨rfl, rfl⟩

theorem SampleBuffer.write_reserved (b : SampleBuffer) {a : BitVec 4} (h : addressedWord a = none) (d : Word) :
    b.write a d = b := by
  simp [SampleBuffer.write, h]

/-- Two buffers are equal when every word reads the same. -/
theorem SampleBuffer.ext_read {b c : SampleBuffer} (h : ∀ t s, b.read t s = c.read t s) : b = c := by
  obtain ⟨⟨_, _, _⟩, ⟨_, _, _⟩, ⟨_, _, _⟩⟩ := b
  obtain ⟨⟨_, _, _⟩, ⟨_, _, _⟩, ⟨_, _, _⟩⟩ := c
  have := h .acc .x; have := h .acc .y; have := h .acc .z
  have := h .gyr .x; have := h .gyr .y; have := h .gyr .z
  have := h .tmp .x; have := h .tmp .y; have := h .tmp .z
  simp_all [SampleBuffer.read, SampleBuffer.selected, Triple.get]

/-! The cursor. -/

/-- The ring as a counter modulo 6 (R106). -/
theorem cursorPos_nextCursor (c : Cursor) : cursorPos (nextCursor c) = (cursorPos c + 1) % 6 := by
  obtain ⟨s, h⟩ := c
  cases s <;> cases h <;> rfl

theorem nextCursor_of_high {c : Cursor} (h : c.half = .high) : nextCursor c = ⟨c.slot, .low⟩ := by
  simp [nextCursor, h]

theorem nextCursor_of_low {c : Cursor} (h : c.half = .low) : nextCursor c = ⟨nextSlot c.slot, .high⟩ := by
  simp [nextCursor, h]

theorem nextCursor_injective {c d : Cursor} (h : nextCursor c = nextCursor d) : c = d := by
  obtain ⟨s, a⟩ := c
  obtain ⟨t, b⟩ := d
  revert h
  cases s <;> cases a <;> cases t <;> cases b <;> decide

/-! The engine. -/

@[simp] theorem Engine.atCommand_start {e : Engine} (h : e.cursor = Cursor.start) : e.atCommand = true := by
  rw [Engine.atCommand, h]; rfl

theorem Engine.atCommand_of_ne {e : Engine} (h : e.cursor ≠ Cursor.start) : e.atCommand = false :=
  commandPosition_of_ne h

theorem selectionUpdate_start {e : Engine} (h : e.cursor = Cursor.start) (rx : Byte) :
    selectionUpdate e rx = decodeCommand rx := by
  simp [selectionUpdate, h]

theorem selectionUpdate_of_ne {e : Engine} (h : e.cursor ≠ Cursor.start) (rx : Byte) :
    selectionUpdate e rx = e.sel := by
  simp [selectionUpdate, Engine.atCommand_of_ne h]

theorem Engine.atHigh_of_high {e : Engine} (h : e.cursor.half = .high) : e.atHigh = true := by
  simp [Engine.atHigh, h]

theorem Engine.atHigh_of_low {e : Engine} (h : e.cursor.half = .low) : e.atHigh = false := by
  simp [Engine.atHigh, h]

/-- Fetch in mode NONE (R134). -/
theorem fetch_of_none {e : Engine} (h : e.snapshot = .none) (sel : Sel) (b : SampleBuffer) :
    fetch sel e b = (b.read sel e.cursor.slot, .none) := by
  simp [fetch, h]

/-- Fetch in mode WORD at HIGH (R135). -/
theorem fetch_of_word_high {e : Engine} {w : Word} (h : e.snapshot = .word w) (hh : e.cursor.half = .high)
    (sel : Sel) (b : SampleBuffer) :
    fetch sel e b = (b.read sel e.cursor.slot, .word (b.read sel e.cursor.slot)) := by
  simp [fetch, h, fetchWord, Engine.atHigh_of_high hh]

/-- Fetch in mode WORD at LOW (R135). -/
theorem fetch_of_word_low {e : Engine} {w : Word} (h : e.snapshot = .word w) (hh : e.cursor.half = .low)
    (sel : Sel) (b : SampleBuffer) : fetch sel e b = (w, .word w) := by
  simp [fetch, h, fetchWord, Engine.atHigh_of_low hh]

/-- Fetch in mode TRIPLE at (0,HIGH) (R136). -/
theorem fetch_of_triple_start {e : Engine} {v : Triple} (h : e.snapshot = .triple v)
    (hc : e.cursor = Cursor.start) (sel : Sel) (b : SampleBuffer) :
    fetch sel e b = (b.read sel .x, .triple (b.selected sel)) := by
  rw [fetch, h, ← SampleBuffer.read_triple]
  simp [fetchTriple, Engine.atCommand_start hc]

/-- Fetch in mode TRIPLE elsewhere (R136). -/
theorem fetch_of_triple_rest {e : Engine} {v : Triple} (h : e.snapshot = .triple v)
    (hc : e.cursor ≠ Cursor.start) (sel : Sel) (b : SampleBuffer) :
    fetch sel e b = (v.get e.cursor.slot, .triple v) := by
  simp [fetch, h, fetchTriple, Engine.atCommand_of_ne hc]

/-- A fetch keeps the mode (R103): the register it returns is of the same kind. -/
@[simp] theorem fetch_mode (sel : Sel) (e : Engine) (b : SampleBuffer) :
    (fetch sel e b).2.mode = e.snapshot.mode := by
  unfold fetch fetchWord fetchTriple
  split <;> (try split_ifs) <;> simp_all [Snapshot.mode]

@[simp] theorem engineStep_sel (e : Engine) (b : SampleBuffer) (rx : Byte) :
    (engineStep e b rx).1.sel = selectionUpdate e rx := rfl

@[simp] theorem engineStep_cursor (e : Engine) (b : SampleBuffer) (rx : Byte) :
    (engineStep e b rx).1.cursor = nextCursor e.cursor := rfl

@[simp] theorem engineStep_snapshot (e : Engine) (b : SampleBuffer) (rx : Byte) :
    (engineStep e b rx).1.snapshot = (fetch (selectionUpdate e rx) e b).2 := rfl

@[simp] theorem engineStep_byte (e : Engine) (b : SampleBuffer) (rx : Byte) :
    (engineStep e b rx).2 = byteOf e.cursor.half (fetch (selectionUpdate e rx) e b).1 := rfl

/-- Away from the command position the byte is not examined (R102, R114). -/
theorem engineStep_ignores {e : Engine} (h : e.cursor ≠ Cursor.start) (b : SampleBuffer) (rx ry : Byte) :
    engineStep e b rx = engineStep e b ry := by
  simp [engineStep, selectionUpdate_of_ne h]

/-! The exchange at the wire. -/

@[simp] theorem exchange_sb (rx : Byte) (s : State) : (exchange rx s).sb = s.sb := rfl
@[simp] theorem exchange_engine (rx : Byte) (s : State) :
    (exchange rx s).engine = (engineStep s.engine s.sb rx).1 := rfl
@[simp] theorem exchange_txd (rx : Byte) (s : State) :
    (exchange rx s).txd = (engineStep s.engine s.sb rx).2 := rfl
@[simp] theorem exchange_txdReset (rx : Byte) (s : State) : (exchange rx s).txdReset = s.txdReset := rfl
@[simp] theorem exchange_inbox (rx : Byte) (s : State) : (exchange rx s).inbox = s.inbox := rfl
@[simp] theorem exchange_outbox (rx : Byte) (s : State) : (exchange rx s).outbox = s.outbox ++ [s.txd] := rfl
@[simp] theorem exchange_withInbox (rx : Byte) (s : State) (l : List PortWord) :
    exchange rx (s.withInbox l) = (exchange rx s).withInbox l := rfl

/-- The exchange keeps the mode. -/
theorem exchange_mode (rx : Byte) (s : State) : (exchange rx s).mode = s.mode := by
  simp

/-! The write. -/

@[simp] theorem sbWrite_sb (a : BitVec 4) (d : Word) (s : State) : (sbWrite a d s).sb = s.sb.write a d := rfl
@[simp] theorem sbWrite_engine (a : BitVec 4) (d : Word) (s : State) : (sbWrite a d s).engine = s.engine := rfl
@[simp] theorem sbWrite_txd (a : BitVec 4) (d : Word) (s : State) : (sbWrite a d s).txd = s.txd := rfl
@[simp] theorem sbWrite_txdReset (a : BitVec 4) (d : Word) (s : State) :
    (sbWrite a d s).txdReset = s.txdReset := rfl
@[simp] theorem sbWrite_inbox (a : BitVec 4) (d : Word) (s : State) : (sbWrite a d s).inbox = s.inbox := rfl
@[simp] theorem sbWrite_outbox (a : BitVec 4) (d : Word) (s : State) : (sbWrite a d s).outbox = s.outbox := rfl
@[simp] theorem sbWrite_withInbox (a : BitVec 4) (d : Word) (s : State) (l : List PortWord) :
    sbWrite a d (s.withInbox l) = (sbWrite a d s).withInbox l := rfl

/-! The reset. -/

@[simp] theorem clearSnapshot_mode (r : Snapshot) : (clearSnapshot r).mode = r.mode := by cases r <;> rfl

@[simp] theorem resetEngine_sel (e : Engine) : (resetEngine e).sel = .null := rfl
@[simp] theorem resetEngine_cursor (e : Engine) : (resetEngine e).cursor = Cursor.start := rfl
@[simp] theorem resetEngine_snapshot (e : Engine) : (resetEngine e).snapshot = clearSnapshot e.snapshot := rfl

theorem clearSnapshot_eq_ofMode (r : Snapshot) : clearSnapshot r = Snapshot.ofMode r.mode := by
  cases r <;> rfl

@[simp] theorem resetBlock_sb (s : State) : (resetBlock s).sb = s.sb := rfl
@[simp] theorem resetBlock_engine (s : State) : (resetBlock s).engine = resetEngine s.engine := rfl
@[simp] theorem resetBlock_txd (s : State) : (resetBlock s).txd = s.txdReset := rfl
@[simp] theorem resetBlock_txdReset (s : State) : (resetBlock s).txdReset = s.txdReset := rfl
@[simp] theorem resetBlock_inbox (s : State) : (resetBlock s).inbox = s.inbox := rfl
@[simp] theorem resetBlock_outbox (s : State) : (resetBlock s).outbox = s.outbox := rfl
@[simp] theorem resetBlock_withInbox (s : State) (l : List PortWord) :
    resetBlock (s.withInbox l) = (resetBlock s).withInbox l := rfl

/-- The reset keeps the mode. -/
theorem resetBlock_mode (s : State) : (resetBlock s).mode = s.mode := by
  simp

/-! The bytes of a word. -/

@[simp] theorem byteOf_high (v : Word) : byteOf .high v = highByte v := rfl
@[simp] theorem byteOf_low (v : Word) : byteOf .low v = lowByte v := rfl
@[simp] theorem byteOf_zero (h : Half) : byteOf h 0#16 = 0#8 := by cases h <;> rfl

/-- The two bytes of a word determine it (R105). -/
theorem word_ext_bytes {v w : Word} (hh : highByte v = highByte w) (hl : lowByte v = lowByte w) : v = w := by
  apply BitVec.eq_of_getLsbD_eq
  intro i hi
  by_cases h8 : i < 8
  · have := congrArg (fun b => b.getLsbD i) hl
    simpa [lowByte, BitVec.getLsbD_extractLsb', h8] using this
  · have := congrArg (fun b => b.getLsbD (i - 8)) hh
    simpa [highByte, BitVec.getLsbD_extractLsb', show i - 8 < 8 by omega, show 8 + (i - 8) = i by omega] using this

end Sys2Proof.Machine
end

