-- ==== Sys2Proof/Laws/PerInstr.lean ====
section
/-! SUPPORT. Facts per constructor of `Instr`. Family `TableWord`: the bits of an event's port word, numbered as
the opcode table numbers them, are read back as that event at the command position. -/

namespace Sys2Proof.Laws.TableWord

/-- The width of a port word's format (R80). -/
def width : PortWord → Nat
  | .cmd8 _ => 8
  | .sbw20 _ => 20
  | .pin _ => 1

/-- The bits of a port word as a number. -/
def bits : PortWord → Nat
  | .cmd8 op => op.toNat
  | .sbw20 w => w.toNat
  | .pin rst => rst.toNat

/-- The event's own word, read as a row of the table, is the event (if it is one at (0,HIGH)). -/
def Statement (i : Instr) : Prop :=
  i.wellFormedAt Cursor.start = true → decodeTableWord (width (encode i)) (bits (encode i)) = some i

theorem xchgA : Statement .xchgA := fun _ => rfl

theorem xchgG : Statement .xchgG := fun _ => rfl

theorem xchgT : Statement .xchgT := fun _ => rfl

theorem xchgN (op : Byte) : Statement (.xchgN op) := by
  intro h
  have hn : decodeCommand op = .null := by
    rw [decodeCommand_eq_null_iff]
    simpa [Instr.wellFormedAt, Instr.operandsOk, Instr.positionOk, and_assoc] using h
  simp [decodeTableWord, portWordOf, width, bits, encode, decode, decodeExchange, decodeSelecting, hn, op.isLt]

theorem xchgD (ignored : Byte) : Statement (.xchgD ignored) := by
  intro h
  simp [Instr.wellFormedAt, Instr.positionOk] at h

theorem sbWr (t s : BitVec 2) (d : Word) : Statement (.sbWr t s d) := by
  intro _
  have hlt : (((t ++ s : BitVec 4) ++ d : BitVec 20)).toNat < 1048576 :=
    (((t ++ s : BitVec 4) ++ d : BitVec 20)).isLt
  have hd := decodeWrite_append t s d
  simp only [decodeTableWord, portWordOf, width, bits, encode, hlt, BitVec.ofNat_toNat, BitVec.setWidth_eq]
  simp [decode, hd]

theorem reset : Statement .reset := fun _ => rfl

end Sys2Proof.Laws.TableWord
end

