-- ==== Sys2Proof/Laws/Sampler.lean ====
section
/-! SUPPORT. The Sampler's writes and what a refresh may store, said once. -/

namespace Sys2Proof.Machine

/-- Two words of the address map have different addresses (R51). -/
theorem readAddress_inj {t u : Sel} {r q : Slot} (h : readAddress t r = readAddress u q) : t = u ∧ r = q := by
  revert h
  cases t <;> cases u <;> cases r <;> cases q <;> decide

/-- A write determines its word and its data (R83). -/
@[simp] theorem writeWord_inj {t u : Sel} {r q : Slot} {d e : Word} :
    writeWord t r d = writeWord u q e ↔ t = u ∧ r = q ∧ d = e := by
  refine ⟨fun h => ?_, by rintro ⟨rfl, rfl, rfl⟩; rfl⟩
  simp only [writeWord, PortWord.sbw20.injEq] at h
  have ha := congrArg (BitVec.extractLsb' 16 4) h
  have hd := congrArg (BitVec.extractLsb' 0 16) h
  simp only [(write_of_address _ _).1, (write_of_address _ _).2] at ha hd
  exact ⟨(readAddress_inj ha).1, (readAddress_inj ha).2, hd⟩

@[simp] theorem isWrite_writeWord (t : Sel) (r : Slot) (d : Word) : isWrite (writeWord t r d) = true := rfl

/-- `REFRESH` writes each word of its triple and no other (R92). -/
theorem writeWord_mem_macroRefresh {t u : Sel} {r : Slot} {d : Word} {v : Triple} :
    writeWord t r d ∈ macroRefresh u v ↔ t = u ∧ d = v.get r := by
  cases r <;> simp [macroRefresh, Triple.get]

/-- Every event of `REFRESH` is a write. -/
theorem mem_macroRefresh {w : PortWord} {u : Sel} {v : Triple} (h : w ∈ macroRefresh u v) :
    ∃ r d, w = writeWord u r d := by
  simp only [macroRefresh, List.mem_cons, List.not_mem_nil, or_false] at h
  rcases h with rfl | rfl | rfl <;> exact ⟨_, _, rfl⟩

/-- The triple a reading supplies to a triple of the buffer, if it supplies one. -/
def RawReading.supplies (conv : Word → Word) (r : RawReading) : Sel → Option Triple
  | .acc => r.accel.map RawTriple.axes
  | .gyr => r.gyro.map RawTriple.axes
  | .tmp => r.temp.map fun b => replicateTemp (conv (pairBytes b.1 b.2))
  | .null => none

/-- A reading writes a word exactly when it supplies the word's triple, and writes that triple's component. -/
theorem writeWord_mem_writes {conv : Word → Word} {r : RawReading} {t : Sel} {u : Slot} {d : Word} :
    writeWord t u d ∈ r.writes conv ↔ ∃ v, r.supplies conv t = some v ∧ d = v.get u := by
  rcases r with ⟨_ | a, _ | g, _ | b⟩ <;>
    simp only [RawReading.writes, RawReading.accelWrites, RawReading.gyroWrites, RawReading.tempWrites,
      List.mem_append, writeWord_mem_macroRefresh, List.not_mem_nil, false_or, or_false] <;>
    cases t <;> simp [RawReading.supplies]

/-- Every event of a refresh is a write of a word. -/
theorem mem_writes {conv : Word → Word} {r : RawReading} {w : PortWord} (h : w ∈ r.writes conv) :
    ∃ t u d, w = writeWord t u d := by
  have refresh {t v} (h : w ∈ macroRefresh t v) : ∃ t u d, w = writeWord t u d := ⟨t, mem_macroRefresh h⟩
  simp only [RawReading.writes, List.mem_append] at h
  rcases h with (h | h) | h
  · cases ha : r.accel <;> simp only [RawReading.accelWrites, ha, List.not_mem_nil] at h
    exact refresh h
  · cases hg : r.gyro <;> simp only [RawReading.gyroWrites, hg, List.not_mem_nil] at h
    exact refresh h
  · cases ht : r.temp <;> simp only [RawReading.tempWrites, ht, List.not_mem_nil] at h
    exact refresh h

/-- Storing all that was acquired is always allowed (R158). -/
theorem RawReading.mayStore_self (r : RawReading) : r.MayStore r :=
  ⟨.inr rfl, .inr rfl, .inr rfl, fun _ => rfl⟩

/-- A refresh in which nothing failed stores all it acquired (R151). -/
theorem RawReading.mayStore_iff_of_complete {r q : RawReading} (h : r.complete = true) : r.MayStore q ↔ q = r :=
  ⟨fun hq => hq.2.2.2 h, by rintro rfl; exact q.mayStore_self⟩

/-- The writes of a reading, in any order, are a refresh (R157). -/
theorem isRefresh_of_perm {conv : Word → Word} {r : RawReading} {ws : List PortWord}
    (h : ws.Perm (r.writes conv)) : IsRefresh conv r ws := ⟨r, r.mayStore_self, h⟩

/-- The writes of a refresh in which nothing failed are its nine, in some order (R151, R157). -/
theorem isRefresh_iff_of_complete {conv : Word → Word} {r : RawReading} {ws : List PortWord}
    (h : r.complete = true) : IsRefresh conv r ws ↔ ws.Perm (r.writes conv) := by
  refine ⟨fun ⟨q, hq, hp⟩ => ?_, isRefresh_of_perm⟩
  rwa [(RawReading.mayStore_iff_of_complete h).1 hq] at hp

/-- Where some acquisition failed, no write at all is a refresh too (R158). -/
theorem isRefresh_nil {conv : Word → Word} {r : RawReading} (h : r.complete = false) : IsRefresh conv r [] :=
  ⟨⟨none, none, none⟩, ⟨.inl rfl, .inl rfl, .inl rfl, fun hc => by simp [h] at hc⟩, .nil⟩

end Sys2Proof.Machine
end

