-- ==== Sys2Proof/Laws/Step.lean ====
section
/-! SUPPORT. What one step can do, said once: `react` is the state after one port word, and a step is `react` of
the word in front. Running over a list of words is then a fold, and `Drains` a fact about the fold. -/

namespace Sys2Proof.Machine

/-- The state after one port word (the inbox apart). -/
def react (w : PortWord) (s : State) : State :=
  match w with
  | .cmd8 rx => exchange rx s
  | .sbw20 t => sbWrite (wordAddress (t.extractLsb' 18 2) (t.extractLsb' 16 2)) (t.extractLsb' 0 16) s
  | .pin rst => if rst = 1#1 then resetBlock s else s

@[simp] theorem react_cmd8 (rx : Byte) (s : State) : react (.cmd8 rx) s = exchange rx s := rfl

@[simp] theorem react_inbox (w : PortWord) (s : State) : (react w s).inbox = s.inbox := by
  unfold react
  split
  · simp
  · simp
  · split_ifs <;> simp

@[simp] theorem react_withInbox (w : PortWord) (s : State) (l : List PortWord) :
    react w (s.withInbox l) = (react w s).withInbox l := by
  unfold react
  split
  · simp
  · simp
  · split_ifs <;> simp

/-- A word that is neither an exchange nor a reset leaves all but the buffer (R57, R130). -/
theorem react_other {w : PortWord} (he : isExchange w = false) (hr : isReset w = false) (s : State) :
    (react w s).engine = s.engine ∧ (react w s).txd = s.txd ∧ (react w s).outbox = s.outbox ∧
      (react w s).txdReset = s.txdReset := by
  cases w with
  | cmd8 _ => cases he
  | sbw20 _ => simp [react]
  | pin r =>
    have hr' : r ≠ 1#1 := by simpa [isReset] using hr
    simp [react, hr']

/-- A word that is no write leaves the buffer (R23). -/
theorem react_not_write {w : PortWord} (h : isWrite w = false) (s : State) : (react w s).sb = s.sb := by
  cases w with
  | cmd8 _ => rfl
  | sbw20 _ => cases h
  | pin r => simp only [react]; split_ifs <;> rfl

/-- The Sampler's write of a word (R83, R130). -/
theorem react_writeWord (t : Sel) (r : Slot) (d : Word) (s : State) :
    react (writeWord t r d) s = sbWrite (readAddress t r) d s := by
  simp only [writeWord, react, wordAddress_of_write, (write_of_address _ _).1, (write_of_address _ _).2]

@[simp] theorem exchangeCount_nil : exchangeCount [] = 0 := rfl

theorem exchangeCount_cons (w : PortWord) (l : List PortWord) :
    exchangeCount (w :: l) = (if isExchange w then 1 else 0) + exchangeCount l := by
  unfold exchangeCount
  by_cases h : isExchange w <;> simp [h]
  omega

theorem exchangeCount_append (l m : List PortWord) :
    exchangeCount (l ++ m) = exchangeCount l + exchangeCount m := by
  simp [exchangeCount]

@[simp] theorem State.stream_withInbox (s : State) (l : List PortWord) : (s.withInbox l).stream = s.stream := rfl

/-- An exchange puts exactly one byte on its way to the master (R107, R119). -/
theorem stream_exchange (rx : Byte) (s : State) :
    (exchange rx s).stream = s.stream ++ [(exchange rx s).txd] := rfl

/-- Every event answers a next state (R108, R172). -/
theorem exec_answers_next (i : Instr) (s : State) : ∃ t, exec i s = .next t := by
  cases i <;> exact ⟨_, rfl⟩

/-- The meaning of an exchange event is the exchange of its byte (R100). -/
theorem exec_of_encode_cmd8 {i : Instr} {rx : Byte} (h : encode i = .cmd8 rx) (s : State) :
    exec i s = .next (exchange rx s) := by
  cases i <;> simp_all [encode] <;> subst h <;> rfl

theorem exec_decodeExchange (c : Cursor) (rx : Byte) (s : State) :
    exec (decodeExchange c rx) s = .next (exchange rx s) :=
  exec_of_encode_cmd8 (encode_decodeExchange c rx) s

/-- With nothing presented, nothing happens. -/
theorem step_of_inbox_nil {s : State} (h : s.inbox = []) : step s = .next s := by
  simp [step, h]

/-- A step takes the word in front and reacts to it. -/
theorem step_of_inbox_cons {s : State} {w : PortWord} {rest : List PortWord} (h : s.inbox = w :: rest) :
    step s = .next (react w (s.withInbox rest)) := by
  rw [step, h]
  cases w with
  | cmd8 rx => exact exec_decodeExchange s.cursor rx (s.withInbox rest)
  | sbw20 t => rfl
  | pin rst =>
    simp only [takeWord, decode, react]
    split_ifs <;> rfl

/-- Everything a step can do: nothing, an exchange, a write, a reset, or the taking of a word that is no event. -/
theorem step_cases {s t : State} (h : step s = .next t) :
    (s.inbox = [] ∧ t = s) ∨
      ∃ rest, (∃ rx, s.inbox = .cmd8 rx :: rest ∧ t = exchange rx (s.withInbox rest)) ∨
        (∃ w, s.inbox = .sbw20 w :: rest ∧
          t = sbWrite (wordAddress (w.extractLsb' 18 2) (w.extractLsb' 16 2)) (w.extractLsb' 0 16)
            (s.withInbox rest)) ∨
        (s.inbox = .pin 1#1 :: rest ∧ t = resetBlock (s.withInbox rest)) ∨
        (∃ rst, rst ≠ 1#1 ∧ s.inbox = .pin rst :: rest ∧ t = s.withInbox rest) := by
  cases hi : s.inbox with
  | nil =>
    rw [step_of_inbox_nil hi] at h
    exact .inl ⟨rfl, by injection h with h; exact h.symm⟩
  | cons w rest =>
    rw [step_of_inbox_cons hi] at h
    injection h with h
    subst h
    refine .inr ⟨rest, ?_⟩
    cases w with
    | cmd8 rx => exact .inl ⟨rx, rfl, rfl⟩
    | sbw20 w => exact .inr (.inl ⟨w, rfl, rfl⟩)
    | pin rst =>
      by_cases hr : rst = 1#1
      · subst hr; exact .inr (.inr (.inl ⟨rfl, rfl⟩))
      · exact .inr (.inr (.inr ⟨rst, hr, rfl, by simp [react, hr]⟩))

@[simp] theorem runFor_zero (s : State) : runFor 0 s = .next s := rfl

/-- One more step in front of a run. -/
theorem runFor_succ_of_step {s t : State} (h : step s = .next t) (n : Nat) :
    runFor (n + 1) s = runFor n t := by
  have h' : Sys2Proof.core.step s = .next t := h
  simp only [runFor, Host.Core.run]
  split
  · next u hu =>
    injection h'.symm.trans hu with e
    rw [e]
  · next r hr => injection h'.symm.trans hr
  · next r hr => injection h'.symm.trans hr

/-- A step always answers a next state. -/
theorem step_answers_next (s : State) : ∃ t, step s = .next t := by
  cases hi : s.inbox with
  | nil => exact ⟨s, step_of_inbox_nil hi⟩
  | cons w rest => exact ⟨_, step_of_inbox_cons hi⟩

/-- A run always answers a next state. -/
theorem runFor_answers_next (n : Nat) (s : State) : ∃ t, runFor n s = .next t := by
  induction n generalizing s with
  | zero => exact ⟨s, rfl⟩
  | succ n ih =>
    obtain ⟨t, ht⟩ := step_answers_next s
    rw [runFor_succ_of_step ht]
    exact ih t

/-- An invariant of the step is an invariant of every run. -/
theorem runFor_induction {P : State → Prop} (hstep : ∀ s t, step s = .next t → P s → P t) {n : Nat} {s t : State}
    (hs : P s) (h : runFor n s = .next t) : P t := by
  induction n generalizing s with
  | zero => injection h with h; exact h ▸ hs
  | succ n ih =>
    obtain ⟨u, hu⟩ := step_answers_next s
    rw [runFor_succ_of_step hu] at h
    exact ih (hstep s u hu hs) h

/-- The state after a list of port words, the inbox apart. -/
def reactAll (l : List PortWord) (s : State) : State := l.foldl (fun t w => react w t) s

@[simp] theorem reactAll_nil (s : State) : reactAll [] s = s := rfl

@[simp] theorem reactAll_cons (w : PortWord) (l : List PortWord) (s : State) :
    reactAll (w :: l) s = reactAll l (react w s) := rfl

theorem reactAll_append (l m : List PortWord) (s : State) :
    reactAll (l ++ m) s = reactAll m (reactAll l s) := by
  simp [reactAll, List.foldl_append]

theorem reactAll_withInbox (l : List PortWord) (s : State) (m : List PortWord) :
    reactAll l (s.withInbox m) = (reactAll l s).withInbox m := by
  induction l generalizing s with
  | nil => rfl
  | cons w l ih => simp [ih]

/-- As many steps as there are words in front take exactly those words. -/
theorem runFor_takes (l m : List PortWord) (s : State) :
    runFor l.length (s.withInbox (l ++ m)) = .next ((reactAll l s).withInbox m) := by
  induction l generalizing s with
  | nil => rfl
  | cons w l ih =>
    have hs : step (s.withInbox (w :: l ++ m)) = .next ((react w s).withInbox (l ++ m)) := by
      simpa using step_of_inbox_cons (s := s.withInbox (w :: l ++ m)) (w := w) (rest := l ++ m) rfl
    rw [List.length_cons, runFor_succ_of_step hs]
    exact ih (react w s)

/-- Presented with `l`, the machine takes it all and stands where the fold says. -/
theorem drains_reactAll (s : State) (l : List PortWord) : Drains s l ((reactAll l s).withInbox []) := by
  have := runFor_takes l [] s
  simpa [Drains] using this

/-- The machine is deterministic: what it drains to is what the fold says. -/
theorem drains_iff {s t : State} {l : List PortWord} : Drains s l t ↔ t = (reactAll l s).withInbox [] := by
  constructor
  · intro h
    have h' := drains_reactAll s l
    unfold Drains at h h'
    rw [h] at h'
    injection h' with h'
  · rintro rfl
    exact drains_reactAll s l

end Sys2Proof.Machine
end

