-- ==== Sys2Proof/Tests/Slice0.lean ====
section
/-! SUPPORT. The model's own tests. Expected values are the spec's test vectors (95_test_vectors.md, V and T ids)
or are read off its encodings by hand; the witnesses meet the hypotheses of the statements. -/

namespace Sys2Proof.Tests

open Sys2Proof.Machine

/-! The common start state of 95_test_vectors.md section 2. -/

def buffer : SampleBuffer :=
  ⟨⟨0x1234#16, 0x5678#16, 0x7794#16⟩, ⟨0xFFFF#16, 0x8000#16, 0x0100#16⟩, ⟨0x0024#16, 0x0024#16, 0x0024#16⟩⟩

def start : State := ⟨buffer, ⟨.null, Cursor.start, .none⟩, 0x5A#8, 0x5A#8, [], []⟩

/-- The start state with another engine state and latch. -/
def at_ (sel : Sel) (c : Cursor) (r : Snapshot) (txd : Byte) : State :=
  { start with engine := ⟨sel, c, r⟩, txd := txd }

/-- What a master and a reader of the state see after one event. -/
def seen (i : Instr) (s : State) : Option (Sel × Cursor × Byte × List Byte) :=
  match exec i s with
  | .next t => some (t.engine.sel, t.cursor, t.txd, t.outbox)
  | .fault _ => none
  | .refused _ => none

def bufferAfter (i : Instr) (s : State) : Option SampleBuffer :=
  match exec i s with
  | .next t => some t.sb
  | .fault _ => none
  | .refused _ => none

def registerAfter (i : Instr) (s : State) : Option (Snapshot × Byte) :=
  match exec i s with
  | .next t => some (t.engine.snapshot, t.txd)
  | .fault _ => none
  | .refused _ => none

/-! WellFormed refuses an ill-formed term of each check. -/

theorem test_wf_null_operand_is_no_command : Instr.operandsOk (.xchgN 0x61#8) = false := by decide
theorem test_wf_null_operand_gyro : Instr.operandsOk (.xchgN 0x67#8) = false := by decide
theorem test_wf_null_operand_temp : Instr.operandsOk (.xchgN 0x74#8) = false := by decide
theorem test_wf_accel_position : Instr.wellFormedAt ⟨.x, .low⟩ .xchgA = false := by decide
theorem test_wf_gyro_position : Instr.wellFormedAt ⟨.y, .high⟩ .xchgG = false := by decide
theorem test_wf_temp_position : Instr.wellFormedAt ⟨.z, .low⟩ .xchgT = false := by decide
theorem test_wf_null_position : Instr.wellFormedAt ⟨.x, .low⟩ (.xchgN 0x00#8) = false := by decide
theorem test_wf_data_position : Instr.wellFormedAt Cursor.start (.xchgD 0x00#8) = false := by decide
theorem test_wf_accepts : Instr.wellFormedAt Cursor.start (.xchgN 0x60#8) = true := by decide

/-! Words written out bit by bit from R81, R83 and R80 decode to the events they stand for. -/

theorem test_decode_accel : decode Cursor.start (.cmd8 0b01100001#8) = .ok .xchgA := rfl
theorem test_decode_gyro : decode Cursor.start (.cmd8 0b01100111#8) = .ok .xchgG := rfl
theorem test_decode_temp : decode Cursor.start (.cmd8 0b01110100#8) = .ok .xchgT := rfl
/-- V4e: 0x61 with bit 7 set. -/
theorem test_decode_null : decode Cursor.start (.cmd8 0b11100001#8) = .ok (.xchgN 0xE1#8) := rfl
/-- V14, exchange 2: a command byte at (0,LOW). -/
theorem test_decode_data : decode ⟨.x, .low⟩ (.cmd8 0b01100111#8) = .ok (.xchgD 0x67#8) := rfl
/-- P1, line 3: `W ACC.Z, 0x7794` is 0x27794. -/
theorem test_decode_write : decode ⟨.z, .high⟩ (.sbw20 0b00100111011110010100#20) = .ok (.sbWr 0#2 2#2 0x7794#16) := rfl
theorem test_decode_reset : decode ⟨.y, .low⟩ (.pin 0b1#1) = .ok .reset := rfl
theorem test_decode_pin_low : decode Cursor.start (.pin 0b0#1) = .error .resetInputLow := rfl

theorem test_table_accel : decodeTableWord 8 0x61 = some .xchgA := by decide
theorem test_table_null : decodeTableWord 8 0x00 = some (.xchgN 0x00#8) := by decide
theorem test_table_write : decodeTableWord 24 0x58000 = some (.sbWr 1#2 1#2 0x8000#16) := by decide
theorem test_table_reset : decodeTableWord 1 1 = some .reset := by decide
theorem test_table_too_wide : decodeTableWord 24 0x100000 = none := by decide

/-- A word placed for the first step after reset is run by it. -/
theorem test_first_step_after_reset : step (State.reset.withFetchWord 8 0x74) = exec .xchgT State.reset := rfl

/-! One event on a small state. -/

/-- V1. -/
theorem test_accel_v1 : seen .xchgA start = some (.acc, ⟨.x, .low⟩, 0x12#8, [0x5A#8]) := by decide
/-- V5: the old selection is irrelevant. -/
theorem test_accel_v5 : seen .xchgA (at_ .gyr Cursor.start .none 0x00#8) = some (.acc, ⟨.x, .low⟩, 0x12#8, [0x00#8]) := by decide
/-- V2. -/
theorem test_gyro_v2 : seen .xchgG start = some (.gyr, ⟨.x, .low⟩, 0xFF#8, [0x5A#8]) := by decide
/-- V24, first exchange, mode TRIPLE. -/
theorem test_gyro_triple : registerAfter .xchgG (at_ .null Cursor.start (.triple ⟨0#16, 0#16, 0#16⟩) 0x5A#8) =
    some (.triple ⟨0xFFFF#16, 0x8000#16, 0x0100#16⟩, 0xFF#8) := by decide
/-- V3. -/
theorem test_temp_v3 : seen .xchgT start = some (.tmp, ⟨.x, .low⟩, 0x00#8, [0x5A#8]) := by decide
/-- R135 at (0,HIGH). -/
theorem test_temp_word : registerAfter .xchgT (at_ .null Cursor.start (.word 0xBEEF#16) 0x5A#8) =
    some (.word 0x0024#16, 0x00#8) := by decide
/-- V4b: 0x61 with bit 5 cleared. -/
theorem test_null_v4b : seen (.xchgN 0x41#8) start = some (.null, ⟨.x, .low⟩, 0x00#8, [0x5A#8]) := by decide
/-- V5a: the old selection is dropped. -/
theorem test_null_v5a : seen (.xchgN 0x00#8) (at_ .gyr Cursor.start .none 0x94#8) = some (.null, ⟨.x, .low⟩, 0x00#8, [0x94#8]) := by decide
/-- V15: a command byte at (2,LOW) is ignored and the cursor wraps. -/
theorem test_data_v15 : seen (.xchgD 0x67#8) (at_ .acc ⟨.z, .low⟩ .none 0x77#8) = some (.acc, Cursor.start, 0x94#8, [0x77#8]) := by decide
/-- P3, line 3, mode WORD: the low byte is of the held word 0x00FF. -/
theorem test_data_word : registerAfter (.xchgD 0x00#8) (at_ .acc ⟨.x, .low⟩ (.word 0x00FF#16) 0x00#8) =
    some (.word 0x00FF#16, 0xFF#8) := by decide
/-- V16a: address 0x6 is GYR.Z. -/
theorem test_write_v16a : bufferAfter (.sbWr 1#2 2#2 0x0001#16) start =
    some { buffer with gyr := ⟨0xFFFF#16, 0x8000#16, 0x0001#16⟩ } := by decide
/-- V17: address 0xC is reserved. -/
theorem test_write_v17 : exec (.sbWr 3#2 0#2 0xDEAD#16) start = .next start := rfl
/-- V29: RESET at (2,HIGH) replaces the pending byte. -/
theorem test_reset_v29 : seen .reset (at_ .gyr ⟨.z, .high⟩ .none 0x00#8) = some (.null, Cursor.start, 0x5A#8, []) := by decide
/-- V28, mode TRIPLE. -/
theorem test_reset_triple : registerAfter .reset (at_ .gyr ⟨.z, .high⟩ (.triple buffer.acc) 0x00#8) =
    some (.triple ⟨0#16, 0#16, 0#16⟩, 0x5A#8) := by decide

/-! The Sampler and the master. -/

/-- T14: toward zero, not floor. -/
theorem test_temp_t14 : tempConv 0xCF52#16 = 0x0000#16 := by decide
/-- T18. -/
theorem test_temp_t18 : tempConv 0xCDFE#16 = 0xFFFF#16 := by decide
/-- T20. -/
theorem test_temp_t20 : tempConv 0x8000#16 = 0xFFC5#16 := by decide
/-- T5. -/
theorem test_temp_t5 : tempConv 0x0077#16 = 0x0025#16 := by decide
/-- R152. -/
theorem test_pair : pairBytes 0x12#8 0x34#8 = 0x1234#16 := by decide
/-- P1: the port words of a refresh of ACC. -/
theorem test_refresh_words : macroRefresh .acc buffer.acc = [.sbw20 0x01234#20, .sbw20 0x15678#20, .sbw20 0x27794#20] := by decide
/-- V8. -/
theorem test_signed : signedValue (assemble 0xFF#8 0xFE#8) = -2 := by decide
/-- R85, on the bytes received in P1. -/
theorem test_frame : assembleFrame (frameAt 0 [0x5A#8, 0x12#8, 0x34#8, 0x56#8, 0x78#8, 0x77#8, 0x94#8]) = some buffer.acc := by decide
/-- R176: reset overrides the other strobes. -/
theorem test_port_reset : PortSample.words ⟨true, true, 0x61#8, true, 0x0#4, 0x1234#16⟩ true = [.pin 1#1] := by decide
theorem test_port_write : PortSample.words ⟨false, false, 0x61#8, true, 0x6#4, 0x0001#16⟩ true = [.sbw20 0x60001#20] := by decide

/-! Witnesses: states and operands that meet the hypotheses of the statements. -/

def mid : State := at_ .acc ⟨.y, .low⟩ .none 0x56#8
def midHigh : State := at_ .acc ⟨.y, .high⟩ .none 0x34#8
def frameWords : List PortWord :=
  [.cmd8 0x61#8, .cmd8 0x67#8, .sbw20 0x60001#20, .cmd8 0x00#8, .cmd8 0x00#8, .cmd8 0x00#8, .cmd8 0xFF#8]

theorem frameWords_cycle : IsCycle 0x61#8 frameWords := ⟨frameWords.tail, rfl, by decide, by decide⟩
theorem nullWords_cycle : IsCycle 0x60#8 (.cmd8 0x60#8 :: frameWords.tail) := ⟨frameWords.tail, rfl, by decide, by decide⟩

theorem witness_ExchangeByteNamesEvent_accel :
    start.cursor = Cursor.start ∧ (0x61#8 = 0x61#8 ∧ Instr.xchgA = .xchgA ∧ Sel.acc = .acc) := by decide
theorem witness_ExchangeByteNamesEvent_null :
    start.cursor = Cursor.start ∧ 0x60#8 ∉ [0x61#8, 0x67#8, 0x74#8] ∧ 0x75#8 ∉ [0x61#8, 0x67#8, 0x74#8] := by decide
theorem witness_ExchangeByteNamesEvent_data : mid.cursor ≠ Cursor.start ∧ (at_ .acc ⟨.x, .low⟩ .none 0#8).cursor ≠ Cursor.start := by decide
theorem witness_DecodeOfEncodeIsEvent : Instr.wellFormedAt Cursor.start (.xchgN 0x62#8) = true ∧
    Instr.wellFormedAt ⟨.z, .low⟩ (.xchgD 0x61#8) = true ∧ Instr.wellFormedAt Cursor.start (.sbWr 3#2 3#2 0xFFFF#16) = true := by decide
theorem witness_EncodeOfDecodeIsWord : decode mid.cursor (.cmd8 0x61#8) = .ok (.xchgD 0x61#8) ∧
    decode mid.cursor (.pin 0#1) = .error .resetInputLow := ⟨rfl, rfl⟩
theorem witness_StepRunsDecodedEvent : (mid.withInbox [.cmd8 0x61#8]).inbox = .cmd8 0x61#8 :: [] ∧
    decode mid.cursor (.cmd8 0x61#8) = .ok (.xchgD 0x61#8) ∧ start.cursor = Cursor.start ∧
    decodeTableWord 24 0xA0025 = some (.sbWr 2#2 2#2 0x0025#16) := ⟨rfl, rfl, rfl, by decide⟩
theorem witness_StepWithoutEventChangesNothing : mid.inbox = [] ∧
    (mid.withInbox [.pin 0#1]).inbox = .pin 0#1 :: [] := by decide
theorem witness_SelectingCommandEffect : start.cursor = ⟨.x, .high⟩ ∧
    (at_ .gyr Cursor.start (.word 0#16) 0x94#8).cursor = ⟨.x, .high⟩ := by decide
theorem witness_NullCommandEffect : start.cursor = ⟨.x, .high⟩ ∧ 0x00#8 ∉ [0x61#8, 0x67#8, 0x74#8] ∧
    0xFF#8 ∉ [0x61#8, 0x67#8, 0x74#8] := by decide
theorem witness_DataExchangeEffect : mid.cursor ≠ ⟨.x, .high⟩ ∧ mid.cursor.half = .low ∧ mid.mode = .none ∧
    midHigh.cursor ≠ ⟨.x, .high⟩ ∧ midHigh.cursor.half = .high ∧ midHigh.mode = .none := by decide
theorem witness_SnapshotRegistersCapture_none : encode (.xchgD 0x67#8) = .cmd8 0x67#8 ∧
    mid.engine.sel = (if mid.cursor = Cursor.start then decodeCommand 0x67#8 else mid.engine.sel) ∧
    mid.engine.snapshot = .none := ⟨rfl, by decide, rfl⟩
theorem witness_SnapshotRegistersCapture_word :
    (at_ .acc ⟨.y, .high⟩ (.word 0x1234#16) 0#8).engine.snapshot = .word 0x1234#16 ∧
    (at_ .acc ⟨.y, .high⟩ (.word 0x1234#16) 0#8).cursor.half = .high ∧
    (at_ .acc ⟨.x, .low⟩ (.word 0x1234#16) 0#8).engine.snapshot = .word 0x1234#16 ∧
    (at_ .acc ⟨.x, .low⟩ (.word 0x1234#16) 0#8).cursor.half = .low := ⟨rfl, rfl, rfl, rfl⟩
theorem witness_SnapshotRegistersCapture_triple :
    (at_ .acc Cursor.start (.triple buffer.acc) 0#8).engine.snapshot = .triple buffer.acc ∧
    (at_ .acc Cursor.start (.triple buffer.acc) 0#8).cursor = Cursor.start ∧
    (at_ .acc ⟨.x, .low⟩ (.triple buffer.acc) 0#8).engine.snapshot = .triple buffer.acc ∧
    (at_ .acc ⟨.x, .low⟩ (.triple buffer.acc) 0#8).cursor ≠ Cursor.start := ⟨rfl, rfl, rfl, by decide⟩
theorem witness_CursorAdvancesByRing : ∃ t, step (mid.withInbox [.cmd8 0x61#8]) = .next t ∧
    (mid.withInbox [.cmd8 0x61#8]).inbox = .cmd8 0x61#8 :: [] ∧ t.cursor ≠ mid.cursor := ⟨_, rfl, rfl, by decide⟩
theorem witness_CursorAdvancesByRing_reset : ∃ t, step (mid.withInbox [.pin 1#1]) = .next t ∧ t.cursor ≠ mid.cursor := ⟨_, rfl, by decide⟩
theorem witness_SelectionUpdatedOnlyAtCommandPosition :
    (start.withInbox [.cmd8 0x61#8]).inbox = .cmd8 0x61#8 :: [] ∧ start.cursor = Cursor.start ∧
    (mid.withInbox [.cmd8 0x61#8]).inbox = .cmd8 0x61#8 :: [] ∧ mid.cursor ≠ Cursor.start ∧
    ∃ t, step (start.withInbox [.cmd8 0x61#8]) = .next t ∧ t.engine.sel ≠ start.engine.sel :=
  ⟨rfl, rfl, rfl, by decide, _, rfl, by decide⟩
theorem witness_ReservedWriteChangesNothing : ((3#2 = 3#2 ∨ 0#2 = 3#2) : Prop) ∧ ((2#2 = 3#2 ∨ 3#2 = 3#2) : Prop) := by decide
theorem witness_BufferReadsLatestWrite : Sel.gyr ≠ .null ∧ lastWritten .gyr .z frameWords = some 0x0001#16 ∧
    lastWritten .gyr .x frameWords = none := by decide
theorem witness_BufferWrittenAndReadOnlyByItsPorts : ∃ t, step (mid.withInbox [.sbw20 0x60001#20]) = .next t ∧
    t.sb ≠ mid.sb ∧ ∀ rx rest, (mid.withInbox [.sbw20 0x60001#20]).inbox ≠ .cmd8 rx :: rest :=
  ⟨_, rfl, by decide, by intro rx rest h; cases h⟩
theorem witness_ModeNoneRereadsTheWord : start.mode = .none ∧ start.cursor.half = .high ∧
    Sel.acc = (if start.cursor = Cursor.start then decodeCommand 0x61#8 else start.engine.sel) ∧ Sel.acc ≠ .null ∧
    midHigh.mode = .none ∧ midHigh.cursor.half = .high := by decide
theorem witness_ModeWordSendsWholeWords : (at_ .acc ⟨.z, .high⟩ (.word 0#16) 0#8).mode = .word ∧
    (at_ .acc ⟨.z, .high⟩ (.word 0#16) 0#8).cursor.half = .high ∧
    ∀ w ∈ [PortWord.sbw20 0x20000#20, .sbw20 0x2FFFF#20], isWrite w = true := by decide
theorem witness_ModeTripleSendsWholeFrames : (at_ .gyr Cursor.start (.triple buffer.tmp) 0#8).mode = .triple ∧
    (at_ .gyr Cursor.start (.triple buffer.tmp) 0#8).cursor = Cursor.start ∧ IsCycle 0x61#8 frameWords :=
  ⟨rfl, rfl, frameWords_cycle⟩
theorem witness_OneCycleSendsTheFrame : start.cursor = Cursor.start ∧ IsCycle 0x61#8 frameWords ∧
    NoWriteTo (decodeCommand 0x61#8) frameWords := ⟨rfl, frameWords_cycle, by decide⟩
theorem witness_UnknownCommandSendsZeros : 0x60#8 ∉ [0x61#8, 0x67#8, 0x74#8] ∧ 0xFF#8 ∉ [0x61#8, 0x67#8, 0x74#8] ∧
    start.cursor = Cursor.start ∧ IsCycle 0x60#8 (.cmd8 0x60#8 :: frameWords.tail) :=
  ⟨by decide, by decide, rfl, nullWords_cycle⟩
theorem witness_DataPositionsIgnoreTheByte : start.cursor = Cursor.start ∧ NoReset frameWords.tail ∧
    exchangeCount frameWords.tail = 5 ∧
    List.Forall₂ (fun w v => w = v ∨ (isExchange w = true ∧ isExchange v = true)) [PortWord.cmd8 0x61#8, .sbw20 0#20]
      [.cmd8 0x00#8, .sbw20 0#20] ∧ ((2#2 = 3#2 ∨ 3#2 = 3#2) : Prop) :=
  ⟨rfl, by decide, by decide, .cons (.inr ⟨rfl, rfl⟩) (.cons (.inl rfl) .nil), by decide⟩
theorem witness_RepeatedCommandRepeatsTheFrame : start.cursor = Cursor.start ∧ IsCycle 0x61#8 frameWords ∧
    NoReset [PortWord.sbw20 0x60001#20] ∧ exchangeCount [PortWord.sbw20 0x60001#20] % 6 = 0 ∧
    NoWriteTo (decodeCommand 0x61#8) (frameWords ++ [.sbw20 0x60001#20] ++ frameWords) :=
  ⟨rfl, frameWords_cycle, by decide, by decide, by decide⟩
theorem witness_SnapshotModesAgree : at_ .null Cursor.start (.word 0#16) 0x5A#8 =
    start.withEngine { start.engine with snapshot := (at_ .null Cursor.start (.word 0#16) 0x5A#8).engine.snapshot } ∧
    start.cursor = Cursor.start ∧ IsCycle 0x61#8 frameWords ∧ NoWriteTo (decodeCommand 0x61#8) frameWords :=
  ⟨rfl, rfl, frameWords_cycle, by decide⟩
theorem witness_MasterReceivesOneExchangeLate : NoReset frameWords ∧ 1 ≤ exchangeCount frameWords ∧
    1 ≤ exchangeCount [PortWord.cmd8 0x00#8] := by decide
theorem witness_CursorCountsExchanges : NoReset frameWords ∧ NoReset [] := by decide
theorem witness_ResetEffect : ∃ t, exec .reset (at_ .gyr ⟨.z, .low⟩ (.word 0xFFFF#16) 0#8) = .next t ∧
    t.engine.snapshot = .word 0#16 := ⟨_, rfl, rfl⟩
theorem witness_ResetEffect_triple : ∃ t, exec .reset (at_ .gyr ⟨.z, .low⟩ (.triple buffer.acc) 0#8) = .next t ∧
    t.engine.snapshot = .triple ⟨0#16, 0#16, 0#16⟩ := ⟨_, rfl, rfl⟩
theorem witness_ResetStateValues : Sel.acc ≠ .null := by decide
theorem witness_SelectionAndSnapshotUnobservable :
    (at_ .null Cursor.start (.word 0#16) 0x5A#8).cursor = Cursor.start ∧
    at_ .gyr Cursor.start (.word 0xBEEF#16) 0x5A#8 = (at_ .null Cursor.start (.word 0#16) 0x5A#8).withEngine
      (at_ .gyr Cursor.start (.word 0xBEEF#16) 0x5A#8).engine ∧
    (at_ .gyr Cursor.start (.word 0xBEEF#16) 0x5A#8).cursor = Cursor.start ∧
    (at_ .gyr Cursor.start (.word 0xBEEF#16) 0x5A#8).mode = (at_ .null Cursor.start (.word 0#16) 0x5A#8).mode := by decide
theorem witness_StepKeepsLatchInvariant : LatchInv (at_ .acc ⟨.x, .low⟩ (.word 0x1234#16) 0x12#8) ∧
    ∃ t, step ((at_ .acc ⟨.x, .low⟩ (.word 0x1234#16) 0x12#8).withInbox [.cmd8 0#8]) = .next t ∧ t.txd = 0x34#8 := by
  refine ⟨⟨fun _ h e => ?_, fun _ v e => (by cases e), fun _ e => (by cases e)⟩, _, rfl, by decide⟩
  injection e with e
  subst e
  decide
theorem witness_StepKeepsLatchInvariant_triple : LatchInv (at_ .acc ⟨.z, .low⟩ (.triple buffer.acc) 0x77#8) := by
  refine ⟨fun _ h e => (by cases e), fun _ v e => ?_, fun _ e => by cases e⟩
  injection e with e
  subst e
  decide
theorem witness_StepKeepsLatchInvariant_null : LatchInv (at_ .null ⟨.y, .high⟩ (.word 0#16) 0x00#8) := by
  refine ⟨fun _ h e => ?_, fun _ v e => (by cases e),
    fun _ _ => ⟨rfl, fun h e => (by injection e with e; exact e.symm), fun v e => (by cases e)⟩⟩
  injection e with e
  subst e
  decide
theorem witness_StepKeepsParameters : ∃ t, step (mid.withInbox [.pin 1#1]) = .next t := ⟨_, rfl⟩
theorem witness_PortSampleOverrideAndCoincidence :
    (⟨true, true, 0x61#8, true, 0x0#4, 0x1234#16⟩ : PortSample).rst = true ∧
    (⟨false, true, 0x61#8, true, 0x0#4, 0x1234#16⟩ : PortSample).rst = false ∧
    (⟨false, true, 0x61#8, true, 0x0#4, 0x1234#16⟩ : PortSample).xchgDone = true ∧
    (⟨false, true, 0x61#8, true, 0x0#4, 0x1234#16⟩ : PortSample).sbWe = true ∧ start.mode = .none := by decide
theorem witness_PortSample_single :
    (⟨false, true, 0x67#8, false, 0x0#4, 0x1234#16⟩ : PortSample).words true = [.cmd8 0x67#8] ∧
    (⟨false, false, 0x67#8, true, 0x6#4, 0x1234#16⟩ : PortSample).words false = [.sbw20 0x61234#20] ∧
    (⟨false, false, 0x67#8, true, 0x6#4, 0x1234#16⟩ : PortSample).words true = [.sbw20 0x61234#20] ∧
    (⟨false, false, 0x67#8, false, 0x6#4, 0x1234#16⟩ : PortSample).words true = [] := by decide
theorem witness_TemperatureConversionTruncates : 0 ≤ (0xCF53#16).toInt + 12461 ∧ (0xCF52#16).toInt + 12461 < 0 := by decide

/-- A refresh with no failure: raw temperature 119 converts to 37 (R155). -/
def reading : RawReading :=
  ⟨some ⟨0x12#8, 0x34#8, 0#8, 1#8, 0#8, 2#8⟩, some ⟨0xFF#8, 0xFE#8, 0#8, 0#8, 1#8, 0#8⟩, some (0x00#8, 0x77#8)⟩

/-- The same with a failed angular-rate acquisition. -/
def partReading : RawReading := ⟨reading.accel, none, reading.temp⟩

theorem witness_RefreshReplicatesTemperature : reading.complete = true ∧
    IsRefresh tempConv reading ((reading.writes tempConv).filter isWrite) ∧
    (∃ t, Drains start (reading.writes tempConv) t ∧ t.cursor = Cursor.start ∧
      t.sb.tmp = ⟨37#16, 37#16, 37#16⟩) ∧
    IsCycle 0x74#8 (.cmd8 0x74#8 :: frameWords.tail) ∧ NoWriteTo .tmp (.cmd8 0x74#8 :: frameWords.tail) :=
  ⟨rfl, isRefresh_of_perm (.of_eq (by decide)), ⟨_, drains_reactAll _ _, by decide, by decide⟩,
    ⟨frameWords.tail, rfl, by decide, by decide⟩, by decide⟩
/-- R158: with the angular rate failed, a refresh may store the acceleration, or the temperature, or nothing. -/
theorem witness_RefreshReplicatesTemperature_part : partReading.complete = false ∧
    IsRefresh tempConv partReading partReading.accelWrites ∧
    IsRefresh tempConv partReading (partReading.tempWrites tempConv) ∧ IsRefresh tempConv partReading [] :=
  ⟨rfl, ⟨⟨partReading.accel, none, none⟩, ⟨.inr rfl, .inl rfl, .inl rfl, by decide⟩, .of_eq (by decide)⟩,
    ⟨⟨none, none, partReading.temp⟩, ⟨.inl rfl, .inl rfl, .inr rfl, by decide⟩, .of_eq (by decide)⟩,
    isRefresh_nil rfl⟩
theorem witness_FailedRefreshStoresAnySubset :
    partReading.accel = none ∨ partReading.gyro = none ∨ partReading.temp = none := .inr (.inl rfl)

end Sys2Proof.Tests
end

namespace Sys2Proof.Machine

/-- The write keeps the mode. -/
theorem sbWrite_mode (a : BitVec 4) (d : Word) (s : State) : (sbWrite a d s).mode = s.mode := by
  simp

/-- Settles O37: of the operations a step can be, each keeps both parameters, and taking the port word off the
inbox touches neither. -/
theorem stepKeepsParameters : Obligations.StepKeepsParameters := by
  unfold Obligations.StepKeepsParameters
  intro s t h
  obtain ⟨-, rfl⟩ | ⟨rest, ⟨rx, -, rfl⟩ | ⟨w, -, rfl⟩ | ⟨-, rfl⟩ | ⟨rst, -, -, rfl⟩⟩ := step_cases h
  case inl => exact ⟨rfl, rfl⟩
  all_goals have hinbox : (s.withInbox rest).mode = s.mode := rfl
  · exact ⟨(exchange_mode rx _).trans hinbox, exchange_txdReset rx _⟩
  · exact ⟨(sbWrite_mode _ _ _).trans hinbox, sbWrite_txdReset _ _ _⟩
  · exact ⟨(resetBlock_mode _).trans hinbox, resetBlock_txdReset _⟩
  · exact ⟨hinbox, State.withInbox_txdReset s rest⟩

end Sys2Proof.Machine

namespace Sys2Proof.Machine

/-! The cursor's ring (R106). -/

/-- The six edges of the cursor's ring, from position to position (R106). -/
def ringEdges : List (Cursor × Cursor) :=
  [(⟨.x, .high⟩, ⟨.x, .low⟩), (⟨.x, .low⟩, ⟨.y, .high⟩), (⟨.y, .high⟩, ⟨.y, .low⟩),
    (⟨.y, .low⟩, ⟨.z, .high⟩), (⟨.z, .high⟩, ⟨.z, .low⟩), (⟨.z, .low⟩, ⟨.x, .high⟩)]

theorem nextCursor_mem_ringEdges (c : Cursor) : (c, nextCursor c) ∈ ringEdges := by
  obtain ⟨s, h⟩ := c
  cases s <;> cases h <;> decide

/-- A step of an exchange advances the cursor once. -/
theorem step_exchange_cursor {s t : State} {rx : Byte} {rest : List PortWord} (hi : s.inbox = .cmd8 rx :: rest)
    (h : step s = .next t) : t.cursor = nextCursor s.cursor := by
  rw [step_of_inbox_cons hi] at h
  injection h with h
  subst h
  rfl

/-- Settles O13: an exchange advances the cursor by `nextCursor`, whose six values are the ring's edges; the steps
that leave the engine alone leave the cursor too. -/
theorem cursorAdvancesByRing : Obligations.CursorAdvancesByRing := by
  unfold Obligations.CursorAdvancesByRing
  intro s t h
  constructor
  · intro rx rest hi
    rw [step_exchange_cursor hi h]
    exact ⟨nextCursor_mem_ringEdges s.cursor, cursorPos_nextCursor s.cursor⟩
  · intro hne
    obtain ⟨-, rfl⟩ | ⟨rest, ⟨rx, hi, -⟩ | ⟨w, -, rfl⟩ | ⟨hi, -⟩ | ⟨rst, -, -, rfl⟩⟩ := step_cases h
    · exact absurd rfl hne
    · exact .inl ⟨rx, rest, hi⟩
    · exact absurd rfl hne
    · exact .inr ⟨rest, hi⟩
    · exact absurd rfl hne

/-! The two ports of the sample buffer (R23). -/

/-- A word that is no exchange does the same to all but the buffer, whatever the buffer holds. -/
theorem react_withSb {w : PortWord} (h : isExchange w = false) (s : State) (b : SampleBuffer) :
    react w s = (react w (s.withSb b)).withSb (react w s).sb := by
  cases w with
  | cmd8 _ => cases h
  | sbw20 _ => rfl
  | pin _ =>
    simp only [react]
    split_ifs <;> rfl

/-- Settles O18: of the operations a step can be, only the write replaces the buffer; and a word that is no
exchange reacts alike on every buffer. -/
theorem bufferWrittenAndReadOnlyByItsPorts : Obligations.BufferWrittenAndReadOnlyByItsPorts := by
  unfold Obligations.BufferWrittenAndReadOnlyByItsPorts
  constructor
  · intro s t h hne
    obtain ⟨-, rfl⟩ | ⟨rest, ⟨rx, -, rfl⟩ | ⟨w, hi, -⟩ | ⟨-, rfl⟩ | ⟨rst, -, -, rfl⟩⟩ := step_cases h
    · exact absurd rfl hne
    · exact absurd rfl hne
    · exact ⟨w, rest, hi⟩
    · exact absurd rfl hne
    · exact absurd rfl hne
  · intro s b hno
    cases hi : s.inbox with
    | nil => exact ⟨s, s.withSb b, step_of_inbox_nil hi, step_of_inbox_nil hi, rfl⟩
    | cons w rest =>
      have hw : isExchange w = false := by
        cases w with
        | cmd8 rx => exact absurd hi (hno rx rest)
        | sbw20 _ => rfl
        | pin _ => rfl
      exact ⟨_, _, step_of_inbox_cons hi, step_of_inbox_cons (s := s.withSb b) hi,
        react_withSb hw (s.withInbox rest) b⟩

/-! The command position hides what the engine held before it (R37). -/

/-- What the snapshot register of a mode holds after a capture at (0,HIGH) (R135, R136). -/
def Snapshot.captured : SnapshotMode → Triple → Snapshot
  | .none, _ => .none
  | .word, v => .word v.x
  | .triple, v => .triple v

/-- At (0,HIGH) a fetch reads the buffer, and of the old snapshot register only its mode matters. -/
theorem fetch_start {e : Engine} (h : e.cursor = Cursor.start) (sel : Sel) (b : SampleBuffer) :
    fetch sel e b = (b.read sel .x, Snapshot.captured e.snapshot.mode (b.selected sel)) := by
  cases hr : e.snapshot with
  | none => rw [fetch_of_none hr, h]; rfl
  | word w => rw [fetch_of_word_high hr (by rw [h]; rfl), h]; rfl
  | triple v => rw [fetch_of_triple_start hr h]; rfl

/-- At (0,HIGH) the engine's step is a function of the mode, the buffer and the byte alone. -/
theorem engineStep_start {e : Engine} (h : e.cursor = Cursor.start) (b : SampleBuffer) (rx : Byte) :
    engineStep e b rx =
      (⟨decodeCommand rx, nextCursor Cursor.start,
        Snapshot.captured e.snapshot.mode (b.selected (decodeCommand rx))⟩,
      highByte (b.read (decodeCommand rx) .x)) := by
  simp [engineStep, selectionUpdate_start h, fetch_start h, h]

/-- The relation the two runs of R37 stay in: the engines are equal, or both stand at (0,HIGH) in one mode. -/
def Engine.Alike (e f : Engine) : Prop :=
  f = e ∨ (e.cursor = Cursor.start ∧ f.cursor = Cursor.start ∧ f.snapshot.mode = e.snapshot.mode)

theorem Engine.Alike.refl (e : Engine) : e.Alike e := .inl rfl

theorem Engine.Alike.cursor_eq {e f : Engine} (h : e.Alike f) : e.cursor = f.cursor := by
  obtain rfl | ⟨he, hf, -⟩ := h
  · rfl
  · exact he.trans hf.symm

/-- One exchange makes alike engines equal, and its byte too. -/
theorem Engine.Alike.engineStep_eq {e f : Engine} (h : e.Alike f) (b : SampleBuffer) (rx : Byte) :
    engineStep f b rx = engineStep e b rx := by
  obtain rfl | ⟨he, hf, hm⟩ := h
  · rfl
  · rw [engineStep_start hf, engineStep_start he, hm]

/-- A reset makes alike engines equal. -/
theorem Engine.Alike.resetEngine_eq {e f : Engine} (h : e.Alike f) : resetEngine f = resetEngine e := by
  obtain rfl | ⟨-, -, hm⟩ := h
  · rfl
  · rw [resetEngine, resetEngine, clearSnapshot_eq_ofMode, clearSnapshot_eq_ofMode, hm]

/-- Every port word keeps the engines alike and does the same to the rest of the state. -/
theorem react_withEngine_of_alike {s : State} {e : Engine} (h : s.engine.Alike e) (w : PortWord) :
    ∃ f, (react w s).engine.Alike f ∧ react w (s.withEngine e) = (react w s).withEngine f := by
  cases w with
  | cmd8 rx =>
    refine ⟨(exchange rx s).engine, .refl _, ?_⟩
    simp only [react, exchange, State.withEngine_engine, State.withEngine_sb, h.engineStep_eq]
    rfl
  | sbw20 _ => exact ⟨e, h, rfl⟩
  | pin rst =>
    simp only [react]
    split_ifs
    · refine ⟨(resetBlock s).engine, .refl _, ?_⟩
      simp only [resetBlock, State.withEngine_engine, h.resetEngine_eq]
      rfl
    · exact ⟨e, h, rfl⟩

/-- Every step keeps the engines alike and does the same to the rest of the state. -/
theorem step_withEngine_of_alike {s : State} {e : Engine} (h : s.engine.Alike e) :
    ∃ t f, step s = .next t ∧ step (s.withEngine e) = .next (t.withEngine f) ∧ t.engine.Alike f := by
  cases hi : s.inbox with
  | nil => exact ⟨s, e, step_of_inbox_nil hi, step_of_inbox_nil hi, h⟩
  | cons w rest =>
    obtain ⟨f, hf, heq⟩ := react_withEngine_of_alike (s := s.withInbox rest) h w
    exact ⟨_, f, step_of_inbox_cons hi,
      (step_of_inbox_cons (s := s.withEngine e) hi).trans (congrArg _ heq), hf⟩

/-- Every run keeps the engines alike and does the same to the rest of the state. -/
theorem runFor_withEngine_of_alike {s : State} {e : Engine} (h : s.engine.Alike e) (n : Nat) :
    ∃ t f, runFor n s = .next t ∧ runFor n (s.withEngine e) = .next (t.withEngine f) ∧ t.engine.Alike f := by
  induction n generalizing s e with
  | zero => exact ⟨s, e, rfl, rfl, h⟩
  | succ n ih =>
    obtain ⟨s', e', hs, hu, h'⟩ := step_withEngine_of_alike h
    rw [runFor_succ_of_step hs, runFor_succ_of_step hu]
    exact ih h'

/-- Settles O34: the two states have alike engines and are otherwise the same, and every run keeps that. -/
theorem selectionAndSnapshotUnobservableAtCommandPosition :
    Obligations.SelectionAndSnapshotUnobservableAtCommandPosition := by
  unfold Obligations.SelectionAndSnapshotUnobservableAtCommandPosition
  intro s u hs hu hcu hm n
  have h : s.engine.Alike u.engine := .inr ⟨hs, hcu, hm⟩
  obtain ⟨t, f, ht, hv, hf⟩ := runFor_withEngine_of_alike h n
  rw [← hu] at hv
  exact ⟨t, t.withEngine f, ht, hv, rfl, rfl, rfl, hf.cursor_eq⟩

/-! The state after reset (R36). -/

/-- Each word of the buffer is at the free value of its address. -/
theorem State.reset_sb_read {t : Sel} (h : t ≠ .null) (r : Slot) :
    State.reset.sb.read t r = Config.sbReset (readAddress t r) := by
  cases t with
  | null => exact absurd rfl h
  | acc => cases r <;> rfl
  | gyr => cases r <;> rfl
  | tmp => cases r <;> rfl

/-- A RESET of the state after reset changes nothing. -/
theorem resetBlock_reset : resetBlock State.reset = State.reset := rfl

/-- Settles O32: the fields are those of `State.reset`, the buffer's words by their addresses. -/
theorem resetStateValues : Obligations.ResetStateValues := by
  unfold Obligations.ResetStateValues
  exact ⟨rfl, rfl, rfl, rfl, rfl, fun _ r h => State.reset_sb_read h r, rfl, rfl, congrArg _ resetBlock_reset⟩

/-- The latch invariant speaks of positions inside a cycle only, so it holds at (0,HIGH). -/
theorem latchInv_of_start {s : State} (h : s.cursor = Cursor.start) : LatchInv s :=
  ⟨fun hne => absurd h hne, fun hne => absurd h hne, fun hne => absurd h hne⟩

/-- Settles O36: reset puts the cursor at (0,HIGH). -/
theorem latchInvariantAtReset : Obligations.LatchInvariantAtReset := by
  unfold Obligations.LatchInvariantAtReset
  exact latchInv_of_start rfl

end Sys2Proof.Machine

namespace Sys2Proof

/-! Which events are well-formed where, and that decoding and encoding are inverse (R80, R87). -/

theorem wellFormedAt_xchgA_iff {c : Cursor} : Instr.xchgA.wellFormedAt c = true ↔ c = Cursor.start := by
  simp [Instr.wellFormedAt, Instr.operandsOk, Instr.positionOk]

theorem wellFormedAt_xchgG_iff {c : Cursor} : Instr.xchgG.wellFormedAt c = true ↔ c = Cursor.start := by
  simp [Instr.wellFormedAt, Instr.operandsOk, Instr.positionOk]

theorem wellFormedAt_xchgT_iff {c : Cursor} : Instr.xchgT.wellFormedAt c = true ↔ c = Cursor.start := by
  simp [Instr.wellFormedAt, Instr.operandsOk, Instr.positionOk]

theorem wellFormedAt_xchgN_iff {c : Cursor} {op : Byte} :
    (Instr.xchgN op).wellFormedAt c = true ↔ decodeCommand op = .null ∧ c = Cursor.start := by
  simp [Instr.wellFormedAt, Instr.operandsOk, Instr.positionOk, decodeCommand_eq_null_iff, and_assoc]

theorem wellFormedAt_xchgD_iff {c : Cursor} {op : Byte} :
    (Instr.xchgD op).wellFormedAt c = true ↔ c ≠ Cursor.start := by
  simp [Instr.wellFormedAt, Instr.operandsOk, Instr.positionOk]

theorem wellFormedAt_sbWr (c : Cursor) (t s : BitVec 2) (d : Word) :
    (Instr.sbWr t s d).wellFormedAt c = true := rfl

theorem wellFormedAt_reset (c : Cursor) : Instr.reset.wellFormedAt c = true := rfl

theorem decode_cmd8 (c : Cursor) (rx : Byte) : decode c (.cmd8 rx) = .ok (decodeExchange c rx) := rfl

theorem decode_sbw20 (c : Cursor) (w : BitVec 20) : decode c (.sbw20 w) = .ok (decodeWrite w) := rfl

theorem decodeSelecting_of_null {op : Byte} (h : decodeCommand op = .null) : decodeSelecting op = .xchgN op := by
  simp [decodeSelecting, h]

/-- Settles O4, by the event: a selecting exchange is one at (0,HIGH) only, where the decoder compares its byte; a
data exchange is one elsewhere, where it does not; the fields of a write are read back from its word. -/
theorem decodeOfEncodeIsEvent : Obligations.DecodeOfEncodeIsEvent := by
  unfold Obligations.DecodeOfEncodeIsEvent
  intro c i hi
  cases i with
  | xchgA =>
    obtain rfl := wellFormedAt_xchgA_iff.1 hi
    rfl
  | xchgG =>
    obtain rfl := wellFormedAt_xchgG_iff.1 hi
    rfl
  | xchgT =>
    obtain rfl := wellFormedAt_xchgT_iff.1 hi
    rfl
  | xchgN op =>
    obtain ⟨hop, rfl⟩ := wellFormedAt_xchgN_iff.1 hi
    rw [encode, decode_cmd8, decodeExchange_start, decodeSelecting_of_null hop]
  | xchgD ignored =>
    rw [encode, decode_cmd8, decodeExchange_of_ne (wellFormedAt_xchgD_iff.1 hi)]
  | sbWr t s d => rw [encode, decode_sbw20, decodeWrite_append]
  | reset => rfl

theorem decodeSelecting_wellFormedAt (rx : Byte) : (decodeSelecting rx).wellFormedAt Cursor.start = true := by
  unfold decodeSelecting
  split
  · exact wellFormedAt_xchgA_iff.2 rfl
  · exact wellFormedAt_xchgG_iff.2 rfl
  · exact wellFormedAt_xchgT_iff.2 rfl
  · next hop => exact wellFormedAt_xchgN_iff.2 ⟨hop, rfl⟩

/-- Whatever an exchanged byte decodes to at a cursor is an event there (R87). -/
theorem decodeExchange_wellFormedAt (c : Cursor) (rx : Byte) : (decodeExchange c rx).wellFormedAt c = true := by
  by_cases hc : c = Cursor.start
  · rw [hc, decodeExchange_start]
    exact decodeSelecting_wellFormedAt rx
  · rw [decodeExchange_of_ne hc]
    exact wellFormedAt_xchgD_iff.2 hc

theorem encode_decodeWrite (w : BitVec 20) : encode (decodeWrite w) = .sbw20 w :=
  congrArg PortWord.sbw20 (write_fields w)

theorem decode_pin_one (c : Cursor) : decode c (.pin 1#1) = .ok .reset := rfl

theorem decode_pin_zero (c : Cursor) : decode c (.pin 0#1) = .error .resetInputLow := rfl

/-- Settles O5, by the format of the word; only the one bit of `PIN` can be rejected. -/
theorem encodeOfDecodeIsWord : Obligations.EncodeOfDecodeIsWord := by
  unfold Obligations.EncodeOfDecodeIsWord
  intro c w
  cases w with
  | cmd8 rx =>
    rw [decode_cmd8]
    refine ⟨?_, fun e he => nomatch he⟩
    rintro _ ⟨⟩
    exact ⟨encode_decodeExchange c rx, decodeExchange_wellFormedAt c rx⟩
  | sbw20 t =>
    rw [decode_sbw20]
    refine ⟨?_, fun e he => nomatch he⟩
    rintro _ ⟨⟩
    exact ⟨encode_decodeWrite t, wellFormedAt_sbWr ..⟩
  | pin rst =>
    obtain rfl | rfl := BitVec.eq_zero_or_eq_one rst
    · rw [decode_pin_zero]
      exact ⟨fun i hi => (nomatch hi), fun _ _ => rfl⟩
    · rw [decode_pin_one]
      refine ⟨?_, fun e he => nomatch he⟩
      rintro _ ⟨⟩
      exact ⟨rfl, wellFormedAt_reset c⟩

/-- Of the 256 bytes the three commands are not Null (R82). -/
theorem null_commands_length :
    ((List.range 256).filter fun n => decide (decodeCommand (BitVec.ofNat 8 n) = .null)).length = 253 := by
  decide +kernel

/-- Settles O1: each value of the decode has its one byte, and Null the rest. -/
theorem commandByteSelectsTriple : Obligations.CommandByteSelectsTriple := by
  unfold Obligations.CommandByteSelectsTriple
  exact ⟨fun _ => ⟨decodeCommand_eq_acc_iff, decodeCommand_eq_gyr_iff, decodeCommand_eq_tmp_iff,
    decodeCommand_eq_null_iff⟩, null_commands_length⟩

/-- Settles O3: each word is decoded by evaluation at its cursor. -/
theorem writtenOutWordsDecode : Obligations.WrittenOutWordsDecode := by
  unfold Obligations.WrittenOutWordsDecode
  exact ⟨rfl, rfl, rfl, rfl, rfl, rfl, rfl⟩

end Sys2Proof

namespace Sys2Proof.Machine

/-! The byte of an exchange names its event (R87). -/

/-- A byte outside the three commands is Null (R82, R88). -/
theorem decodeCommand_of_notMem {rx : Byte} (h : rx ∉ [0x61#8, 0x67#8, 0x74#8]) : decodeCommand rx = .null :=
  decodeCommand_eq_null_iff.2 (by simpa using h)

/-- The selection an exchanged byte sets, by the cursor at the start of the exchange (R102). -/
theorem exec_exchange_sel {i : Instr} {rx : Byte} (h : encode i = .cmd8 rx) (s : State) :
    ∃ t, exec i s = .next t ∧ t.engine.sel = selectionUpdate s.engine rx :=
  ⟨exchange rx s, exec_of_encode_cmd8 h s, rfl⟩

/-- The four rows of R87 at (0,HIGH) are the decoder's event and its selection. -/
theorem decodeSelecting_of_row {rx : Byte} {i : Instr} {sel : Sel}
    (h : (rx = 0x61#8 ∧ i = .xchgA ∧ sel = .acc) ∨ (rx = 0x67#8 ∧ i = .xchgG ∧ sel = .gyr) ∨
      (rx = 0x74#8 ∧ i = .xchgT ∧ sel = .tmp) ∨
      (rx ∉ [0x61#8, 0x67#8, 0x74#8] ∧ i = .xchgN rx ∧ sel = .null)) :
    i = decodeSelecting rx ∧ sel = decodeCommand rx := by
  obtain ⟨rfl, rfl, rfl⟩ | ⟨rfl, rfl, rfl⟩ | ⟨rfl, rfl, rfl⟩ | ⟨hrx, rfl, rfl⟩ := h
  · exact ⟨rfl, rfl⟩
  · exact ⟨rfl, rfl⟩
  · exact ⟨rfl, rfl⟩
  · have hnull := decodeCommand_of_notMem hrx
    exact ⟨(decodeSelecting_of_null hnull).symm, hnull.symm⟩

/-- Settles O2: at (0,HIGH) the table's rows are `decodeSelecting` and `decodeCommand`; elsewhere the byte is not
examined. -/
theorem exchangeByteNamesEvent : Obligations.ExchangeByteNamesEvent := by
  unfold Obligations.ExchangeByteNamesEvent
  intro s rx
  refine ⟨fun hc i sel hrow => ?_, fun hc => ?_⟩
  · obtain ⟨rfl, rfl⟩ := decodeSelecting_of_row hrow
    have hdec : decodeExchange s.cursor rx = decodeSelecting rx := by rw [hc, decodeExchange_start]
    rw [← hdec, ← selectionUpdate_start hc]
    exact ⟨decode_cmd8 .., exec_exchange_sel (encode_decodeExchange s.cursor rx) s⟩
  · rw [decode_cmd8, decodeExchange_of_ne hc, ← selectionUpdate_of_ne hc rx]
    exact ⟨rfl, exec_exchange_sel rfl s⟩

/-! Port words one by one: an exchange, or a word that touches only the buffer. -/

theorem exchangeCount_cmd8_cons (rx : Byte) (l : List PortWord) :
    exchangeCount (.cmd8 rx :: l) = exchangeCount l + 1 := by
  rw [exchangeCount_cons, isExchange, if_pos rfl, Nat.add_comm]

theorem exchangeCount_cons_of_not {w : PortWord} (h : isExchange w = false) (l : List PortWord) :
    exchangeCount (w :: l) = exchangeCount l := by
  simp [exchangeCount_cons, h]

theorem eq_cmd8_of_isExchange {w : PortWord} (h : isExchange w = true) : ∃ rx, w = .cmd8 rx := by
  cases w with
  | cmd8 rx => exact ⟨rx, rfl⟩
  | sbw20 _ => cases h
  | pin _ => cases h

/-- Induction over a list without a reset: in front stands an exchange, or a word that is neither exchange nor
reset. -/
theorem noReset_induction {motive : (l : List PortWord) → NoReset l → Prop}
    (nil : motive [] (List.forall_mem_nil _))
    (exchange : ∀ rx l (h : NoReset (.cmd8 rx :: l)), motive l (List.forall_mem_cons.1 h).2 → motive _ h)
    (other : ∀ w l (h : NoReset (w :: l)), isExchange w = false → isReset w = false →
      motive l (List.forall_mem_cons.1 h).2 → motive _ h)
    (l : List PortWord) (h : NoReset l) : motive l h := by
  induction l with
  | nil => exact nil
  | cons w l ih =>
    obtain ⟨hw, hl⟩ := List.forall_mem_cons.1 h
    cases he : isExchange w with
    | true =>
      obtain ⟨rx, rfl⟩ := eq_cmd8_of_isExchange he
      exact exchange rx l h (ih hl)
    | false => exact other w l h he hw (ih hl)

theorem exchange_cursor (rx : Byte) (s : State) : (exchange rx s).cursor = nextCursor s.cursor := rfl

theorem cursor_react_other {w : PortWord} (he : isExchange w = false) (hr : isReset w = false) (s : State) :
    (react w s).cursor = s.cursor :=
  congrArg Engine.cursor (react_other he hr s).1

/-- A word that is neither exchange nor reset puts no byte on its way to the master. -/
theorem stream_react_other {w : PortWord} (he : isExchange w = false) (hr : isReset w = false) (s : State) :
    (react w s).stream = s.stream := by
  obtain ⟨-, htxd, hout, -⟩ := react_other he hr s
  rw [State.stream, htxd, hout, State.stream]

/-! Which triple a port word leaves alone. -/

theorem SampleBuffer.selected_write_of_ne (b : SampleBuffer) {a : BitVec 4} {t : Sel}
    (h : ∀ r, addressedWord a ≠ some (t, r)) (d : Word) : (b.write a d).selected t = b.selected t := by
  simp only [← SampleBuffer.read_triple, SampleBuffer.read_write, h, if_false]

/-- The words leave the triple of the selection as it is, in every state. -/
def KeepsTriple (t : Sel) (l : List PortWord) : Prop :=
  ∀ w ∈ l, ∀ s : State, (react w s).sb.selected t = s.sb.selected t

theorem react_sb_selected {t : Sel} {w : PortWord} (h : writesTriple t w = false) (s : State) :
    (react w s).sb.selected t = s.sb.selected t := by
  cases w with
  | cmd8 _ => rfl
  | sbw20 w =>
    refine SampleBuffer.selected_write_of_ne _ (fun r hr => ?_) _
    have haddr := (addressedWord_ne_null hr).2
    have hcode := congrArg (BitVec.extractLsb' 2 2) haddr
    rw [(wordAddress_fields _ _).1, readAddress, (wordAddress_fields _ _).1] at hcode
    exact of_decide_eq_false h hcode
  | pin _ => rw [react_not_write rfl]

theorem NoWriteTo.keepsTriple {t : Sel} {l : List PortWord} (h : NoWriteTo t l) : KeepsTriple t l :=
  fun w hw => react_sb_selected (h w hw)

/-- No word whatever changes the Null triple (R53). -/
theorem keepsTriple_null (l : List PortWord) : KeepsTriple .null l := fun _ _ _ => rfl

/-! One cycle, position by position. -/

/-- The byte of a frame at the cursor's position (R84). -/
theorem frameBytes_getElem?_cursorPos (v : Triple) (c : Cursor) :
    (frameBytes v)[cursorPos c]? = some (byteOf c.half (v.get c.slot)) := by
  obtain ⟨s, h⟩ := c
  cases s <;> cases h <;> rfl

/-- What the snapshot register must hold at a cursor position for the next bytes to be those of `v`. -/
def Snapshot.Serves (r : Snapshot) (c : Cursor) (v : Triple) : Prop :=
  match r with
  | .none => True
  | .word hold => c.half = .low → hold = v.get c.slot
  | .triple snap => c ≠ Cursor.start → snap = v

/-- At (0,HIGH) every register serves: the fetch replaces what it holds. -/
theorem Snapshot.serves_start (r : Snapshot) (v : Triple) : r.Serves Cursor.start v := by
  cases r with
  | none => trivial
  | word _ => exact fun h => nomatch h
  | triple _ => exact fun h => absurd rfl h

/-- In every mode, while the buffer holds `v` and the register serves, the fetch gives the word of `v` at the
cursor's slot, and the register it leaves serves at the next position. -/
theorem fetch_of_serves {e : Engine} {b : SampleBuffer} {sel : Sel}
    (h : e.snapshot.Serves e.cursor (b.selected sel)) :
    (fetch sel e b).1 = (b.selected sel).get e.cursor.slot ∧
      (fetch sel e b).2.Serves (nextCursor e.cursor) (b.selected sel) := by
  cases hr : e.snapshot with
  | none =>
    rw [fetch_of_none hr]
    exact ⟨rfl, trivial⟩
  | word w =>
    rw [hr] at h
    cases hh : e.cursor.half with
    | high =>
      rw [fetch_of_word_high hr hh, nextCursor_of_high hh]
      exact ⟨rfl, fun _ => rfl⟩
    | low =>
      rw [fetch_of_word_low hr hh, nextCursor_of_low hh]
      exact ⟨h hh, fun hlow => nomatch hlow⟩
  | triple u =>
    rw [hr] at h
    by_cases hc : e.cursor = Cursor.start
    · rw [fetch_of_triple_start hr hc, hc]
      exact ⟨rfl, fun _ => rfl⟩
    · rw [fetch_of_triple_rest hr hc, h hc]
      exact ⟨rfl, fun _ => rfl⟩

/-- The state inside or at the end of a cycle of selection `sel`: after the bytes `sent`, the first `n` bytes of the
frame of `v` are on their way to the master, and the buffer and the register serve the rest of it. -/
structure Sending (sel : Sel) (v : Triple) (sent : List Byte) (n : Nat) (s : State) : Prop where
  stream : s.stream = sent ++ (frameBytes v).take n
  position : cursorPos s.cursor = n % 6
  latched : n ≠ 0 → s.engine.sel = sel
  source : s.sb.selected sel = v
  register : s.engine.snapshot.Serves s.cursor v

/-- At (0,HIGH) the frame of every selection is about to be sent. -/
theorem Sending.of_start {s : State} (h : s.cursor = Cursor.start) (sel : Sel) :
    Sending sel (s.sb.selected sel) s.stream 0 s where
  stream := (List.append_nil _).symm
  position := cursorPos_eq_zero_iff.2 h
  latched := fun h0 => absurd rfl h0
  source := rfl
  register := h ▸ Snapshot.serves_start _ _

namespace Sending

variable {sel : Sel} {v : Triple} {sent : List Byte} {n : Nat} {s : State}

/-- An exchange that keeps or latches the selection sends the next byte of the frame. -/
theorem exchange (h : Sending sel v sent n s) (hn : n < 6) {rx : Byte}
    (hsel : selectionUpdate s.engine rx = sel) : Sending sel v sent (n + 1) (exchange rx s) := by
  obtain ⟨hstream, hpos, -, rfl, hreg⟩ := h
  obtain ⟨hword, hnext⟩ := fetch_of_serves hreg
  rw [Nat.mod_eq_of_lt hn] at hpos
  refine ⟨?_, ?_, fun _ => hsel, rfl, ?_⟩
  · have hbyte := frameBytes_getElem?_cursorPos (s.sb.selected sel) s.cursor
    rw [hpos, State.cursor_eq] at hbyte
    rw [stream_exchange, hstream, exchange_txd, engineStep_byte, hsel, hword, List.take_add_one, hbyte,
      List.append_assoc, Option.toList_some]
  · rw [exchange_cursor, cursorPos_nextCursor, hpos]
  · rw [exchange_engine, engineStep_snapshot, hsel]
    exact hnext

/-- A word that is neither exchange nor reset, and leaves the triple, leaves the cycle where it is. -/
theorem react_other (h : Sending sel v sent n s) {w : PortWord} (he : isExchange w = false)
    (hr : isReset w = false) (hk : (react w s).sb.selected sel = s.sb.selected sel) :
    Sending sel v sent n (react w s) := by
  obtain ⟨hengine, -⟩ := Machine.react_other he hr s
  have hcursor := cursor_react_other he hr s
  exact {
    stream := (stream_react_other he hr s).trans h.stream
    position := hcursor ▸ h.position
    latched := hengine ▸ h.latched
    source := hk.trans h.source
    register := hcursor ▸ hengine ▸ h.register }

/-- Inside a cycle the cursor is not at (0,HIGH), so the selection stays. -/
theorem selectionUpdate_eq (h : Sending sel v sent n s) (h0 : n ≠ 0) (hn : n < 6) (rx : Byte) :
    selectionUpdate s.engine rx = sel := by
  have hne : s.cursor ≠ Cursor.start := fun hc => by
    have hpos := h.position
    rw [cursorPos_eq_zero_iff.2 hc, Nat.mod_eq_of_lt hn] at hpos
    exact h0 hpos.symm
  rw [selectionUpdate_of_ne hne, h.latched h0]

/-- After the first exchange of a cycle, each further exchange sends one more byte of the frame. -/
theorem reactAll (h : Sending sel v sent n s) (h0 : n ≠ 0) {l : List PortWord} (hl : NoReset l)
    (hk : KeepsTriple sel l) (hle : n + exchangeCount l ≤ 6) :
    Sending sel v sent (n + exchangeCount l) (reactAll l s) := by
  induction l, hl using noReset_induction generalizing n s with
  | nil => exact h
  | exchange rx l hl ih =>
    rw [exchangeCount_cmd8_cons] at hle ⊢
    have hfirst := h.exchange (by omega) (h.selectionUpdate_eq h0 (by omega) rx)
    have hrest := ih hfirst (Nat.succ_ne_zero n) (fun w hw => hk w (.tail _ hw)) (by omega)
    rwa [Nat.add_assoc, Nat.add_comm 1] at hrest
  | other w l hl he hr ih =>
    rw [exchangeCount_cons_of_not he] at hle ⊢
    exact ih (h.react_other he hr (hk w (.head _) s)) h0 (fun w hw => hk w (.tail _ hw)) hle

/-- With all six bytes sent the cycle is over. -/
theorem six (h : Sending sel v sent 6 s) :
    s.stream = sent ++ frameBytes v ∧ s.cursor = Cursor.start ∧ s.engine.sel = sel :=
  ⟨h.stream, cursorPos_eq_zero_iff.1 h.position, h.latched (by decide)⟩

end Sending

/-- In every mode, a cycle that leaves the selected triple sends its frame (R84, R115). -/
theorem reactAll_cycle {s : State} {c : Byte} {l : List PortWord} (hs : s.cursor = Cursor.start)
    (hl : IsCycle c l) (hk : KeepsTriple (decodeCommand c) l) :
    (reactAll l s).stream = s.stream ++ frameBytes (s.sb.selected (decodeCommand c)) ∧
      (reactAll l s).cursor = Cursor.start ∧ (reactAll l s).engine.sel = decodeCommand c := by
  obtain ⟨rest, rfl, hrest, hcount⟩ := hl
  have hfirst := (Sending.of_start hs (decodeCommand c)).exchange (by decide) (selectionUpdate_start hs c)
  have hall := hfirst.reactAll (by decide) hrest (fun w hw => hk w (.tail _ hw)) (by omega)
  rw [hcount] at hall
  exact hall.six

/-- Settles O22: no write to the selected triple means every word leaves it. -/
theorem oneCycleSendsTheFrame : Obligations.OneCycleSendsTheFrame := by
  unfold Obligations.OneCycleSendsTheFrame
  intro s c l hs hl hw
  exact ⟨_, drains_reactAll s l, reactAll_cycle hs hl (NoWriteTo.keepsTriple hw)⟩

/-- The frame of the Null triple (R84, R88). -/
theorem frameBytes_selected_null (b : SampleBuffer) :
    frameBytes (b.selected .null) = [0#8, 0#8, 0#8, 0#8, 0#8, 0#8] := by
  have hhigh : highByte 0#16 = 0#8 := byteOf_zero .high
  have hlow : lowByte 0#16 = 0#8 := byteOf_zero .low
  simp only [frameBytes, SampleBuffer.selected, hhigh, hlow]

/-- At (0,HIGH) the exchange depends on the decode of its byte only. -/
theorem exchange_congr_of_start {s : State} (hs : s.cursor = Cursor.start) {rx ry : Byte}
    (h : decodeCommand rx = decodeCommand ry) : exchange rx s = exchange ry s := by
  simp only [exchange, engineStep_start hs, h]

/-- Settles O23: such a byte decodes to Null, whose triple no write changes and whose frame is six zeros. -/
theorem unknownCommandSendsZeros : Obligations.UnknownCommandSendsZeros := by
  unfold Obligations.UnknownCommandSendsZeros
  intro c hc
  have hnull := decodeCommand_of_notMem hc
  refine ⟨congrArg Except.ok (decodeSelecting_of_null hnull), fun s d hs hd => ?_, fun s l hs hl => ?_⟩
  · have hsame : exchange c s = exchange d s :=
      exchange_congr_of_start hs (hnull.trans (decodeCommand_of_notMem hd).symm)
    exact congrArg Host.Outcome.next hsame
  · have hcycle := reactAll_cycle hs hl (hnull ▸ keepsTriple_null l)
    rw [hnull, frameBytes_selected_null] at hcycle
    exact ⟨_, drains_reactAll s l, hcycle⟩

/-! The bytes at the data positions (R89). -/

/-- The words are the same, or both are exchanges, whatever their bytes. -/
def SameButByte (w v : PortWord) : Prop := w = v ∨ (isExchange w = true ∧ isExchange v = true)

/-- Away from (0,HIGH) two exchanges do the same, whatever their bytes (R102, R114). -/
theorem exchange_ignores {s : State} (h : s.cursor ≠ Cursor.start) (rx ry : Byte) :
    exchange rx s = exchange ry s := by
  rw [exchange, engineStep_ignores h s.sb rx ry, exchange]

/-- Away from (0,HIGH) two words alike but for an exchange's byte do the same. -/
theorem SameButByte.react_eq {w v : PortWord} (h : SameButByte w v) {s : State} (hs : s.cursor ≠ Cursor.start) :
    react w s = react v s := by
  obtain rfl | ⟨hw, hv⟩ := h
  · rfl
  · obtain ⟨rx, rfl⟩ := eq_cmd8_of_isExchange hw
    obtain ⟨ry, rfl⟩ := eq_cmd8_of_isExchange hv
    exact exchange_ignores hs rx ry

/-- With no exchange left, words alike but for an exchange's byte are the same words. -/
theorem SameButByte.eq_of_not_exchange {w v : PortWord} (h : SameButByte w v) (hw : isExchange w = false) :
    w = v := by
  obtain rfl | ⟨he, -⟩ := h
  · rfl
  · exact absurd he (by simp [hw])

/-- At position `n` of a cycle, not its first, with no more exchanges to come than the cycle has, the bytes of those
exchanges do not matter. -/
theorem reactAll_eq_of_sameButByte {l m : List PortWord} (h : List.Forall₂ SameButByte l m) (hl : NoReset l)
    {n : Nat} {s : State} (hpos : cursorPos s.cursor = n % 6) (h0 : n ≠ 0) (hle : n + exchangeCount l ≤ 6) :
    reactAll l s = reactAll m s := by
  induction l, hl using noReset_induction generalizing m n s with
  | nil =>
    cases h
    rfl
  | exchange rx l hl ih =>
    obtain ⟨v, m, hv, hm, rfl⟩ := List.forall₂_cons_left_iff.1 h
    rw [exchangeCount_cmd8_cons] at hle
    have hne : s.cursor ≠ Cursor.start := fun hc => by
      rw [cursorPos_eq_zero_iff.2 hc] at hpos
      omega
    rw [reactAll_cons, reactAll_cons, ← hv.react_eq hne]
    refine ih hm (n := n + 1) ?_ (Nat.succ_ne_zero n) (by omega)
    rw [react_cmd8, exchange_cursor, cursorPos_nextCursor, hpos, Nat.mod_add_mod]
  | other w l hl he hr ih =>
    obtain ⟨v, m, hv, hm, rfl⟩ := List.forall₂_cons_left_iff.1 h
    rw [exchangeCount_cons_of_not he] at hle
    rw [reactAll_cons, reactAll_cons, ← hv.eq_of_not_exchange he]
    exact ih hm (cursor_react_other he hr s ▸ hpos) h0 hle

/-- A write to a reserved address changes nothing (R131). -/
theorem sbWrite_reserved {t r : BitVec 2} (h : t = 3#2 ∨ r = 3#2) (d : Word) (s : State) :
    sbWrite (wordAddress t r) d s = s := by
  rw [sbWrite, SampleBuffer.write_reserved _ (addressedWord_reserved h)]
  rfl

/-- Settles O24: after the command the cursor stands at position 1, and five exchanges remain. -/
theorem dataPositionsIgnoreTheByte : Obligations.DataPositionsIgnoreTheByte := by
  unfold Obligations.DataPositionsIgnoreTheByte
  refine ⟨fun s c l m hs hl _ hcount hlm => ?_, fun s t r d h => ?_⟩
  · have hpos : cursorPos (exchange c s).cursor = 1 % 6 := by
      rw [exchange_cursor, cursorPos_nextCursor, cursorPos_eq_zero_iff.2 hs]
    have heq := reactAll_eq_of_sameButByte hlm hl hpos (by decide) (by omega)
    refine ⟨_, drains_reactAll s _, drains_iff.2 ?_⟩
    rw [reactAll_cons, reactAll_cons, react_cmd8, heq]
  · exact congrArg Host.Outcome.next (sbWrite_reserved h d s)

/-! What the master has received (R100, R119). -/

theorem outbox_prefix_react (w : PortWord) (s : State) : s.outbox <+: (react w s).outbox := by
  cases w with
  | cmd8 _ => exact List.prefix_append ..
  | sbw20 _ => exact List.prefix_rfl
  | pin rst =>
    simp only [react]
    split_ifs <;> exact List.prefix_rfl

/-- What the master has received stays received. -/
theorem outbox_prefix_reactAll (l : List PortWord) (s : State) : s.outbox <+: (reactAll l s).outbox := by
  induction l generalizing s with
  | nil => exact List.prefix_rfl
  | cons w l ih => exact (outbox_prefix_react w s).trans (ih (react w s))

theorem outbox_length_react (w : PortWord) (s : State) :
    (react w s).outbox.length = s.outbox.length + exchangeCount [w] := by
  cases w with
  | cmd8 _ => exact List.length_append
  | sbw20 _ => rfl
  | pin rst =>
    simp only [react]
    split_ifs <;> rfl

/-- The master receives one byte in each exchange, and only there. -/
theorem outbox_length_reactAll (l : List PortWord) (s : State) :
    (reactAll l s).outbox.length = s.outbox.length + exchangeCount l := by
  induction l generalizing s with
  | nil => rfl
  | cons w l ih =>
    rw [reactAll_cons, ih, outbox_length_react, Nat.add_assoc, ← exchangeCount_append, List.singleton_append]

/-- The byte in the latch is the next the master receives, if no reset replaces it and an exchange follows. -/
theorem stream_prefix_outbox {l : List PortWord} (hl : NoReset l) (hc : 1 ≤ exchangeCount l) (s : State) :
    s.stream <+: (reactAll l s).outbox := by
  induction l, hl using noReset_induction generalizing s with
  | nil => cases hc
  | exchange rx l hl ih => exact outbox_prefix_reactAll l (exchange rx s)
  | other w l hl he hr ih =>
    rw [exchangeCount_cons_of_not he] at hc
    rw [← stream_react_other he hr s]
    exact ih hc (react w s)

/-- The latch's byte stands in what the master receives right after what it had received. -/
theorem outbox_getElem?_latch {l : List PortWord} (hl : NoReset l) (hc : 1 ≤ exchangeCount l) (s : State) :
    (reactAll l s).outbox[s.outbox.length]? = some s.txd := by
  obtain ⟨rest, hrest⟩ := stream_prefix_outbox hl hc s
  simp [← hrest, State.stream]

/-- Settles O27: both clauses say where the latch's byte arrives, after an exchange and after RESET. -/
theorem masterReceivesOneExchangeLate : Obligations.MasterReceivesOneExchangeLate := by
  unfold Obligations.MasterReceivesOneExchangeLate
  refine ⟨fun s l m rx hm hc => ?_, fun s m hm hc => ?_⟩
  · refine ⟨_, _, drains_reactAll s _, drains_reactAll s _, ?_⟩
    have hlen := outbox_length_reactAll (l ++ [.cmd8 rx]) s
    have hlatch := outbox_getElem?_latch hm hc (reactAll (l ++ [.cmd8 rx]) s)
    rw [hlen, exchangeCount_append, ← reactAll_append, List.append_assoc, List.singleton_append,
      ← Nat.add_assoc] at hlatch
    exact hlatch
  · exact ⟨_, drains_reactAll s _, outbox_getElem?_latch hm hc (resetBlock s)⟩

/-! From the Sampler's writes to the master's words (R92, R105). -/

/-- A word is put together from its two bytes (R105). -/
theorem assemble_bytes (w : Word) : assemble (highByte w) (lowByte w) = w :=
  BitVec.extractLsb'_append_extractLsb' (w := 8) (len := 8)

theorem assembleFrame_frameBytes (v : Triple) : assembleFrame (frameBytes v) = some v := by
  simp only [frameBytes, assembleFrame, assemble_bytes]

/-- A refresh of a triple stores it and touches nothing but the buffer (R92, R130). -/
theorem reactAll_macroRefresh {t : Sel} (h : t ≠ .null) (v : Triple) (s : State) :
    (reactAll (macroRefresh t v) s).sb.selected t = v ∧ (reactAll (macroRefresh t v) s).stream = s.stream ∧
      (reactAll (macroRefresh t v) s).cursor = s.cursor := by
  simp only [macroRefresh, reactAll_cons, reactAll_nil, react_writeWord]
  refine ⟨?_, rfl, rfl⟩
  simp [← SampleBuffer.read_triple, SampleBuffer.read_write, addressedWord_readAddress h]

/-- `FRAME c` is a cycle (R16, R92). -/
theorem macroFrame_isCycle (c : Byte) : IsCycle c (macroFrame c) := ⟨_, rfl, by decide, rfl⟩

/-- Exchanges write nothing. -/
theorem macroFrame_keepsTriple (c : Byte) (t : Sel) : KeepsTriple t (macroFrame c) :=
  NoWriteTo.keepsTriple (by simp [NoWriteTo, macroFrame, writesTriple])

theorem react_reset (s : State) : react (.pin 1#1) s = resetBlock s := by
  simp [react]

/-- The exchange of `FLUSH` collects the latch's byte. -/
theorem outbox_macroFlush (s : State) : (reactAll macroFlush s).outbox = s.stream := rfl

/-- RESET, refresh, FRAME and FLUSH give the master `TXD_RESET` and the frame of the triple written. -/
theorem outbox_reset_refresh_frame_flush (s : State) (v : Triple) {t : Sel} (ht : t ≠ .null) {c : Byte}
    (hc : decodeCommand c = t) :
    (reactAll (.pin 1#1 :: macroRefresh t v ++ macroFrame c ++ macroFlush) s).outbox =
      s.outbox ++ s.txdReset :: frameBytes v := by
  subst hc
  obtain ⟨hsel, hstream, hcursor⟩ := reactAll_macroRefresh ht v (resetBlock s)
  have hstart : (resetBlock s).cursor = Cursor.start := resetEngine_cursor s.engine
  obtain ⟨hframe, -, -⟩ := reactAll_cycle (hcursor.trans hstart) (macroFrame_isCycle c) (macroFrame_keepsTriple c _)
  rw [reactAll_append, reactAll_append, reactAll_cons, react_reset, outbox_macroFlush, hframe, hsel, hstream,
    State.stream, resetBlock_outbox, resetBlock_txd, List.append_assoc, List.singleton_append]

/-- Frame 0 is what follows the first byte (R85). -/
theorem frameAt_zero_cons (b : Byte) (v : Triple) : frameAt 0 (b :: frameBytes v) = frameBytes v := by
  simp [frameAt, frameBytes]

theorem command_of_mem {q : Sel × Byte} (h : q ∈ [(Sel.acc, 0x61#8), (Sel.gyr, 0x67#8), (Sel.tmp, 0x74#8)]) :
    q.1 ≠ .null ∧ decodeCommand q.2 = q.1 := by
  revert q
  decide

/-- Settles O29: frame 0 is what follows `TXD_RESET`, and it assembles to the triple. -/
theorem masterReadsWhatSamplerWrote : Obligations.MasterReadsWhatSamplerWrote := by
  unfold Obligations.MasterReadsWhatSamplerWrote
  intro s v q hq
  obtain ⟨hne, hc⟩ := command_of_mem hq
  refine ⟨_, s.txdReset :: frameBytes v, drains_reactAll s _, ?_, rfl, rfl, ?_⟩
  · rw [State.withInbox_outbox, outbox_reset_refresh_frame_flush s v hne hc]
  · rw [frameAt_zero_cons, assembleFrame_frameBytes]

end Sys2Proof.Machine

namespace Sys2Proof.Machine

/-! Two cycles with the same command (R118), and the cursor's phase (R122). -/

/-- The phase of the cursor after port words without a reset is the number of exchanges among them. -/
theorem cursorPos_reactAll {l : List PortWord} (hl : NoReset l) (s : State) :
    cursorPos (reactAll l s).cursor = (cursorPos s.cursor + exchangeCount l) % 6 := by
  induction l, hl using noReset_induction generalizing s with
  | nil => exact (Nat.mod_eq_of_lt (cursorPos_lt s.cursor)).symm
  | exchange rx l hl ih =>
    rw [reactAll_cons, react_cmd8, ih, exchange_cursor, cursorPos_nextCursor, exchangeCount_cmd8_cons,
      Nat.mod_add_mod, Nat.add_assoc, Nat.add_comm 1]
  | other w l hl he hr ih =>
    rw [reactAll_cons, ih, cursor_react_other he hr, exchangeCount_cons_of_not he]

/-- Settles O28: an exchange counts one, and no other word without a reset moves the cursor. -/
theorem cursorCountsExchanges : Obligations.CursorCountsExchanges := by
  unfold Obligations.CursorCountsExchanges
  intro s l hl
  exact ⟨_, drains_reactAll s l, cursorPos_reactAll hl s⟩

/-- Without a reset, each exchange puts one byte on its way to the master, and none that was is lost. -/
theorem stream_reactAll {l : List PortWord} (hl : NoReset l) (s : State) :
    ∃ g, (reactAll l s).stream = s.stream ++ g ∧ g.length = exchangeCount l := by
  induction l, hl using noReset_induction generalizing s with
  | nil => exact ⟨[], (List.append_nil _).symm, rfl⟩
  | exchange rx l hl ih =>
    obtain ⟨g, hg, hlen⟩ := ih (exchange rx s)
    refine ⟨(exchange rx s).txd :: g, ?_, ?_⟩
    · rw [reactAll_cons, react_cmd8, hg, stream_exchange, List.append_assoc, List.singleton_append]
    · rw [List.length_cons, hlen, exchangeCount_cmd8_cons]
  | other w l hl he hr ih =>
    rw [reactAll_cons, ← stream_react_other he hr s, exchangeCount_cons_of_not he]
    exact ih (react w s)

theorem KeepsTriple.reactAll {t : Sel} {l : List PortWord} (h : KeepsTriple t l) (s : State) :
    (reactAll l s).sb.selected t = s.sb.selected t := by
  induction l generalizing s with
  | nil => rfl
  | cons w l ih =>
    obtain ⟨hw, hl⟩ := List.forall_mem_cons.1 h
    exact (ih hl (react w s)).trans (hw s)

/-- Whole cycles' worth of exchanges, without a reset, bring the cursor back to (0,HIGH). -/
theorem cursor_reactAll_start {s : State} {l : List PortWord} (hs : s.cursor = Cursor.start) (hl : NoReset l)
    (hc : exchangeCount l % 6 = 0) : (reactAll l s).cursor = Cursor.start := by
  rw [← cursorPos_eq_zero_iff, cursorPos_reactAll hl, cursorPos_eq_zero_iff.2 hs, Nat.zero_add, hc]

/-- Settles O25: both cycles start at (0,HIGH) and send the frame of the same triple, which no word between the two
starts changes. -/
theorem repeatedCommandRepeatsTheFrame : Obligations.RepeatedCommandRepeatsTheFrame := by
  unfold Obligations.RepeatedCommandRepeatsTheFrame
  intro s c l mid m hs hl hm hmid hcount hw
  obtain ⟨hlmid, hkm⟩ := List.forall_mem_append.1 (NoWriteTo.keepsTriple hw)
  obtain ⟨hkl, hkmid⟩ := List.forall_mem_append.1 hlmid
  obtain ⟨hframe, hcursor, -⟩ := reactAll_cycle hs hl hkl
  obtain ⟨g, hg, hlen⟩ := stream_reactAll hmid (reactAll l s)
  obtain ⟨hagain, -, -⟩ := reactAll_cycle (cursor_reactAll_start hcursor hmid hcount) hm hkm
  have hsame : (reactAll mid (reactAll l s)).sb.selected (decodeCommand c) = s.sb.selected (decodeCommand c) :=
    (KeepsTriple.reactAll hkmid _).trans (KeepsTriple.reactAll hkl s)
  refine ⟨_, frameBytes (s.sb.selected (decodeCommand c)), g, drains_reactAll s _, ?_, rfl, hlen⟩
  rw [State.stream_withInbox, reactAll_append, reactAll_append, hagain, hsame, hg, hframe]

/-! What one exchange does and leaves (R100, R102, R103). -/

theorem exchange_sel (rx : Byte) (s : State) : (exchange rx s).engine.sel = selectionUpdate s.engine rx := rfl

/-- At (0,HIGH), in every mode, the latch takes the high byte of the selected triple's X word. -/
theorem exchange_txd_of_start {s : State} (h : s.cursor = Cursor.start) (rx : Byte) :
    (exchange rx s).txd = highByte (s.sb.read (decodeCommand rx) .x) := by
  rw [exchange_txd, engineStep_start h]

theorem exchange_cursor_of_start {s : State} (h : s.cursor = Cursor.start) (rx : Byte) :
    (exchange rx s).cursor = ⟨.x, .low⟩ := by
  rw [exchange_cursor, h]
  rfl

/-- Mode NONE has no snapshot register (R30, R31). -/
theorem Snapshot.eq_none_of_mode {r : Snapshot} (h : r.mode = .none) : r = .none := by
  cases r with
  | none => rfl
  | word _ => cases h
  | triple _ => cases h

/-- In mode NONE the latch takes a byte of the word the buffer holds now (R134). -/
theorem exchange_txd_of_none {s : State} (h : s.mode = .none) (rx : Byte) :
    (exchange rx s).txd = byteOf s.cursor.half (s.sb.read (selectionUpdate s.engine rx) s.cursor.slot) := by
  rw [exchange_txd, engineStep_byte, fetch_of_none (Snapshot.eq_none_of_mode h), State.cursor_eq]

theorem slotCode_nextSlot (s : Slot) : (slotCode (nextSlot s)).toNat = ((slotCode s).toNat + 1) % 3 := by
  cases s <;> rfl

/-- Settles O11: away from (0,HIGH) the exchange ignores its byte and keeps the selection; the cursor's half tells
where the ring goes and which byte mode NONE sends. -/
theorem dataExchangeEffect : Obligations.DataExchangeEffect := by
  unfold Obligations.DataExchangeEffect
  intro s rx hs
  have hsel : selectionUpdate s.engine rx = s.engine.sel := selectionUpdate_of_ne hs rx
  have hbyte (hm : s.mode = .none) := exchange_txd_of_none hm rx
  rw [hsel] at hbyte
  refine ⟨congrArg Except.ok (decodeExchange_of_ne hs rx), exchange rx s, rfl,
    fun ry => congrArg Host.Outcome.next (exchange_ignores hs ry rx), exchange_outbox rx s, hsel,
    fun hhigh => ⟨?_, fun hm => ?_⟩, fun hlow => ⟨?_, ?_, fun hm => ?_⟩, rfl, exchange_mode rx s, rfl, rfl⟩
  · rw [exchange_cursor, nextCursor_of_high hhigh]
  · rw [hbyte hm, hhigh, byteOf_high, highByte]
  · rw [exchange_cursor, nextCursor_of_low hlow]
  · rw [exchange_cursor, nextCursor_of_low hlow, slotCode_nextSlot]
  · rw [hbyte hm, hlow, byteOf_low, lowByte]

/-- Settles O14: a step of an exchange is `exchange`, whose selection is `selectionUpdate`; of the other steps only
RESET replaces the engine. -/
theorem selectionUpdatedOnlyAtCommandPosition : Obligations.SelectionUpdatedOnlyAtCommandPosition := by
  unfold Obligations.SelectionUpdatedOnlyAtCommandPosition
  refine ⟨fun s rx rest hi => ?_, fun s t h hne => ?_⟩
  · refine ⟨_, step_of_inbox_cons hi, fun hc => selectionUpdate_start hc rx, fun hc => ?_⟩
    refine ⟨selectionUpdate_of_ne hc rx, fun ry => (step_of_inbox_cons rfl).trans (congrArg Host.Outcome.next ?_)⟩
    exact exchange_ignores (s := s.withInbox rest) hc ry rx
  · obtain ⟨-, rfl⟩ | ⟨rest, ⟨rx, hi, rfl⟩ | ⟨w, -, rfl⟩ | ⟨hi, -⟩ | ⟨rst, -, -, rfl⟩⟩ := step_cases h
    · exact absurd rfl hne
    · by_cases hc : s.cursor = Cursor.start
      · exact .inl ⟨hc, rx, rest, hi⟩
      · exact absurd (selectionUpdate_of_ne hc rx) hne
    · exact absurd rfl hne
    · exact .inr ⟨rest, hi⟩
    · exact absurd rfl hne

/-- The rows of R110, R111 and R112: event, byte, selection and the triple's X word. -/
theorem selectingRow_of_mem {b : SampleBuffer} {q : Instr × Byte × Sel × Word}
    (h : q ∈ [(Instr.xchgA, 0x61#8, Sel.acc, b.acc.x), (Instr.xchgG, 0x67#8, Sel.gyr, b.gyr.x),
      (Instr.xchgT, 0x74#8, Sel.tmp, b.tmp.x)]) :
    encode q.1 = .cmd8 q.2.1 ∧ decodeSelecting q.2.1 = q.1 ∧ decodeCommand q.2.1 = q.2.2.1 ∧
      b.read q.2.2.1 .x = q.2.2.2 := by
  simp only [List.mem_cons, List.not_mem_nil, or_false] at h
  obtain rfl | rfl | rfl := h <;> exact ⟨rfl, rfl, rfl, rfl⟩

/-- Settles O9: each row's event is the exchange of its byte at (0,HIGH). -/
theorem selectingCommandEffect : Obligations.SelectingCommandEffect := by
  unfold Obligations.SelectingCommandEffect
  intro s hs q hq
  obtain ⟨henc, hdec, hsel, hword⟩ := selectingRow_of_mem hq
  refine ⟨henc, ?_, exchange q.2.1 s, exec_of_encode_cmd8 henc s, exchange_outbox _ s, ?_, ?_,
    exchange_cursor_of_start hs _, rfl, exchange_mode _ s, rfl, rfl⟩
  · rw [decode_cmd8, hs, ← hdec, ← decodeExchange_start, Cursor.start]
  · rw [exchange_sel, selectionUpdate_start hs, hsel]
  · rw [exchange_txd_of_start hs, hsel, hword, highByte]

/-- A Null command does not read the buffer: with any other, only the buffer differs (R113). -/
theorem exchange_withSb_of_null {s : State} (hs : s.cursor = Cursor.start) {op : Byte}
    (hop : decodeCommand op = .null) (b : SampleBuffer) : exchange op (s.withSb b) = (exchange op s).withSb b := by
  have hstep : engineStep s.engine b op = engineStep s.engine s.sb op := by
    rw [engineStep_start hs, engineStep_start hs, hop]
    rfl
  simp only [exchange, State.withSb_engine, State.withSb_sb, hstep]
  rfl

/-- Settles O10: the byte decodes to Null, whose X word is zero in every buffer. -/
theorem nullCommandEffect : Obligations.NullCommandEffect := by
  unfold Obligations.NullCommandEffect
  intro s op hs hop
  have hnull := decodeCommand_of_notMem hop
  refine ⟨?_, exchange op s, rfl, exchange_outbox op s, ?_, ?_, exchange_cursor_of_start hs op, rfl,
    exchange_mode op s, rfl, rfl, fun b => ⟨_, rfl, exchange_withSb_of_null hs hnull b⟩⟩
  · rw [decode_cmd8, hs, ← decodeSelecting_of_null hnull, ← decodeExchange_start, Cursor.start]
  · rw [exchange_sel, selectionUpdate_start hs, hnull]
  · rw [exchange_txd_of_start hs, hnull, SampleBuffer.read_null]
    rfl

/-! The signed reading of a word (R11, R105). -/

/-- The two bytes of a word as numbers: `(high << 8) + low` is the unsigned word. -/
theorem highByte_lowByte_toNat (v : Word) : (highByte v).toNat * 256 + (lowByte v).toNat = v.toNat := by
  have hlt := v.isLt
  simp only [highByte, lowByte, BitVec.extractLsb'_toNat, Nat.shiftRight_eq_div_pow]
  omega

/-- Bit 7 of the high byte is the word's sign. -/
theorem highByte_getLsbD_seven (v : Word) : (highByte v).getLsbD 7 = v.msb := by
  simp [highByte, BitVec.msb_eq_getLsbD_last]

/-- The reading of R11 is the two's-complement value (log 16). -/
theorem signedValue_eq_toInt (v : Word) : signedValue v = v.toInt := by
  have hlt := v.isLt
  simp only [signedValue, BitVec.extractLsb'_toNat, Nat.shiftRight_eq_div_pow, BitVec.toInt_eq_toNat_cond]
  split_ifs <;> omega

/-- Settles O30: each part is the two's-complement value written as the unsigned word less 65536 if it is negative. -/
theorem byteSplitRoundTrip : Obligations.ByteSplitRoundTrip := by
  unfold Obligations.ByteSplitRoundTrip
  intro v
  refine ⟨assemble_bytes v, signedValue_eq_toInt v, ?_⟩
  have hwide := highByte_lowByte_toNat v
  have hsign := highByte_getLsbD_seven v
  rw [highByte] at hwide hsign
  rw [lowByte] at hwide
  rw [hsign, signedValue_eq_toInt, BitVec.toInt_eq_msb_cond, ← hwide]
  split_ifs <;> simp

end Sys2Proof.Machine

namespace Sys2Proof.Machine

/-! The latch and the snapshot register (R134, R135, R136). -/

theorem precedingHalf_nextCursor (c : Cursor) : precedingHalf (nextCursor c) = c.half := by
  obtain ⟨s, h⟩ := c
  cases h <;> rfl

theorem precedingSlot_nextCursor (c : Cursor) : precedingSlot (nextCursor c) = c.slot := by
  obtain ⟨s, h⟩ := c
  cases s <;> cases h <;> rfl

/-- In mode WORD the word fetched is the one `HOLD` holds after the fetch (R135). -/
theorem fetch_fst_of_word {sel : Sel} {e : Engine} {b : SampleBuffer} {w : Word}
    (h : (fetch sel e b).2 = .word w) : (fetch sel e b).1 = w := by
  cases hr : e.snapshot with
  | none => simp [fetch_of_none hr] at h
  | word hold =>
    cases hh : e.cursor.half with
    | high => simpa [fetch_of_word_high hr hh] using h
    | low => simpa [fetch_of_word_low hr hh] using h
  | triple snap => simpa [hr, h, Snapshot.mode] using fetch_mode sel e b

/-- In mode TRIPLE the word fetched is the cursor's word of what `SNAP` holds after the fetch (R136). -/
theorem fetch_fst_of_triple {sel : Sel} {e : Engine} {b : SampleBuffer} {v : Triple}
    (h : (fetch sel e b).2 = .triple v) : (fetch sel e b).1 = v.get e.cursor.slot := by
  cases hr : e.snapshot with
  | none => simp [fetch_of_none hr] at h
  | word hold => simpa [hr, h, Snapshot.mode] using fetch_mode sel e b
  | triple snap =>
    by_cases hc : e.cursor = Cursor.start
    · rw [fetch_of_triple_start hr hc, Snapshot.triple.injEq] at h
      rw [fetch_of_triple_start hr hc, ← h, hc]
      rfl
    · rw [fetch_of_triple_rest hr hc, Snapshot.triple.injEq] at h
      rw [fetch_of_triple_rest hr hc, h]

/-- Where Null is selected next, the register the invariant allows serves the zero frame. -/
theorem LatchInv.serves_null {s : State} (h : LatchInv s) {rx : Byte}
    (hsel : selectionUpdate s.engine rx = .null) :
    s.engine.snapshot.Serves s.engine.cursor (s.sb.selected .null) := by
  by_cases hc : s.engine.cursor = Cursor.start
  · rw [hc]
    exact Snapshot.serves_start _ _
  · rw [selectionUpdate_of_ne hc] at hsel
    obtain ⟨-, hword, htriple⟩ := h.null hc hsel
    cases hr : s.engine.snapshot with
    | none => trivial
    | word w =>
      rw [hword w hr]
      exact fun _ => (SampleBuffer.read_null s.sb _).symm
    | triple v => exact fun _ => htriple v hr

/-- The exchange keeps the latch invariant: the latch takes a byte of the word fetched, which the register holds
after the fetch. -/
theorem LatchInv.exchange {s : State} (h : LatchInv s) (rx : Byte) : LatchInv (exchange rx s) where
  hold _ w hw := by
    rw [exchange_cursor, precedingHalf_nextCursor, exchange_txd, engineStep_byte, fetch_fst_of_word hw,
      State.cursor_eq]
  snap _ v hv := by
    rw [exchange_cursor, precedingHalf_nextCursor, precedingSlot_nextCursor, exchange_txd, engineStep_byte,
      fetch_fst_of_triple hv, State.cursor_eq]
  null hne hnull := by
    have hsel : selectionUpdate s.engine rx = .null := hnull
    obtain ⟨hword, hserves⟩ := fetch_of_serves (h.serves_null hsel)
    have hzero : (fetch .null s.engine s.sb).1 = 0#16 := hword.trans (SampleBuffer.read_null s.sb _)
    rw [exchange_txd, engineStep_byte, exchange_engine, engineStep_snapshot, hsel]
    refine ⟨by rw [hzero, byteOf_zero], fun w hw => (fetch_fst_of_word hw).symm.trans hzero, fun v hv => ?_⟩
    rw [hv] at hserves
    exact hserves hne

/-- The latch invariant is about the engine and the latch alone. -/
theorem LatchInv.of_eq {s t : State} (h : LatchInv s) (he : t.engine = s.engine) (htxd : t.txd = s.txd) :
    LatchInv t where
  hold := by simpa only [State.cursor_eq, he, htxd] using h.hold
  snap := by simpa only [State.cursor_eq, he, htxd] using h.snap
  null := by simpa only [State.cursor_eq, he, htxd] using h.null

/-- Settles O35: an exchange keeps the invariant by what it fetches, RESET ends at (0,HIGH), where the invariant
says nothing, and the other steps leave the engine and the latch. -/
theorem stepKeepsLatchInvariant : Obligations.StepKeepsLatchInvariant := by
  unfold Obligations.StepKeepsLatchInvariant
  intro s t h hstep
  obtain ⟨-, rfl⟩ | ⟨rest, ⟨rx, -, rfl⟩ | ⟨w, -, rfl⟩ | ⟨-, rfl⟩ | ⟨rst, -, -, rfl⟩⟩ := step_cases hstep
  · exact h
  · exact (h.of_eq (t := s.withInbox rest) rfl rfl).exchange rx
  · exact h.of_eq rfl rfl
  · exact latchInv_of_start rfl
  · exact h.of_eq rfl rfl

/-- What the fetch of an exchange answers is the register after it and the word whose byte the latch takes. -/
theorem exchange_of_fetch {s : State} {rx : Byte} {sel : Sel} {w : Word} {r : Snapshot}
    (hsel : selectionUpdate s.engine rx = sel) (h : fetch sel s.engine s.sb = (w, r)) :
    (exchange rx s).engine.snapshot = r ∧ (exchange rx s).txd = byteOf s.engine.cursor.half w := by
  rw [exchange_engine, engineStep_snapshot, exchange_txd, engineStep_byte, hsel, h]
  exact ⟨rfl, rfl⟩

/-- An exchange at HIGH in mode WORD captures the word it sends (R135). -/
theorem exchange_of_word_high {s : State} {rx : Byte} {sel : Sel} {w : Word}
    (hsel : selectionUpdate s.engine rx = sel) (hr : s.engine.snapshot = .word w) (hh : s.cursor.half = .high) :
    (exchange rx s).engine.snapshot = .word (s.sb.read sel s.cursor.slot) ∧
      (exchange rx s).txd = highByte (s.sb.read sel s.cursor.slot) := by
  rw [← byteOf_high, ← hh]
  exact exchange_of_fetch hsel (fetch_of_word_high hr hh ..)

/-- An exchange at LOW in mode WORD sends the low byte of the word held (R135). -/
theorem exchange_of_word_low {s : State} {w : Word} (hr : s.engine.snapshot = .word w)
    (hh : s.cursor.half = .low) (rx : Byte) :
    (exchange rx s).engine.snapshot = .word w ∧ (exchange rx s).txd = lowByte w := by
  rw [← byteOf_low, ← hh]
  exact exchange_of_fetch rfl (fetch_of_word_low hr hh ..)

theorem selectionUpdate_eq_ite (e : Engine) (rx : Byte) :
    selectionUpdate e rx = if e.cursor = Cursor.start then decodeCommand rx else e.sel := by
  split_ifs with hc
  · exact selectionUpdate_start hc rx
  · exact selectionUpdate_of_ne hc rx

/-- Settles O12: every exchange event is the exchange of its byte, and each clause is one case of the fetch. -/
theorem snapshotRegistersCapture : Obligations.SnapshotRegistersCapture := by
  unfold Obligations.SnapshotRegistersCapture
  intro s i rx sel hi hsel
  have hupdate : selectionUpdate s.engine rx = sel := (selectionUpdate_eq_ite s.engine rx).trans hsel.symm
  refine ⟨exchange rx s, exec_of_encode_cmd8 hi s, fun hr => ?_,
    fun _ hr hh => exchange_of_word_high hupdate hr hh, fun _ hr hh => exchange_of_word_low hr hh rx,
    fun v hr hc => ?_, fun v hr hc => ?_⟩
  · exact exchange_of_fetch hupdate (fetch_of_none hr ..)
  · have hh : s.cursor.half = .high := by rw [hc, Cursor.start_half]
    rw [SampleBuffer.read_triple, ← byteOf_high, ← hh]
    exact exchange_of_fetch hupdate (fetch_of_triple_start hr hc ..)
  · exact exchange_of_fetch hupdate (fetch_of_triple_rest hr hc ..)

/-! What a read gives after any events (R133). -/

/-- An address names a word exactly when it is that word's address (R51). -/
theorem addressedWord_eq_some_iff {a : BitVec 4} {t : Sel} (ht : t ≠ .null) {r : Slot} :
    addressedWord a = some (t, r) ↔ a = readAddress t r :=
  ⟨fun h => (addressedWord_ne_null h).2, by rintro rfl; exact addressedWord_readAddress ht r⟩

theorem lastWritten_concat (t : Sel) (r : Slot) (l : List PortWord) (w : PortWord) :
    lastWritten t r (l ++ [w]) = (lastWritten t r [w]).or (lastWritten t r l) := by
  simp only [lastWritten, List.reverse_append, List.findSome?_append, List.reverse_singleton]

theorem lastWritten_sbw20 (t : Sel) (r : Slot) (w : BitVec 20) :
    lastWritten t r [.sbw20 w] =
      if w.extractLsb' 16 4 = readAddress t r then some (w.extractLsb' 0 16) else none := by
  simp [lastWritten]

theorem lastWritten_of_not_write {w : PortWord} (h : isWrite w = false) (t : Sel) (r : Slot) :
    lastWritten t r [w] = none := by
  cases w with
  | cmd8 _ => rfl
  | sbw20 _ => cases h
  | pin _ => rfl

/-- A word of the buffer after one port word is the data written to it, or as it was. -/
theorem react_sb_read {t : Sel} (ht : t ≠ .null) (r : Slot) (w : PortWord) (s : State) :
    (react w s).sb.read t r = (lastWritten t r [w]).getD (s.sb.read t r) := by
  cases hw : isWrite w with
  | false => rw [react_not_write hw, lastWritten_of_not_write hw, Option.getD_none]
  | true =>
    cases w with
    | cmd8 _ => cases hw
    | pin _ => cases hw
    | sbw20 w =>
      rw [lastWritten_sbw20, react, sbWrite_sb, SampleBuffer.read_write, wordAddress_of_write]
      simp only [addressedWord_eq_some_iff ht]
      split_ifs <;> rfl

/-- A word of the buffer after any port words is the data last written to it, or as it was (R133). -/
theorem reactAll_sb_read {t : Sel} (ht : t ≠ .null) (r : Slot) (l : List PortWord) (s : State) :
    (reactAll l s).sb.read t r = (lastWritten t r l).getD (s.sb.read t r) := by
  induction l using List.reverseRecOn with
  | nil => rfl
  | append_singleton l w ih =>
    rw [reactAll_append, reactAll_cons, reactAll_nil, react_sb_read ht, ih, lastWritten_concat, Option.getD_or]

/-- Settles O17, by induction from the end of the list. -/
theorem bufferReadsLatestWrite : Obligations.BufferReadsLatestWrite := by
  unfold Obligations.BufferReadsLatestWrite
  intro s l
  exact ⟨_, drains_reactAll s l, fun r => SampleBuffer.read_null _ r, fun t r ht => reactAll_sb_read ht r l s⟩

/-! The two bytes of one word (R134, R135). -/

theorem ne_start_of_low {c : Cursor} (h : c.half = .low) : c ≠ Cursor.start := by
  rintro rfl
  cases h

/-- After an exchange at HIGH the cursor stands at LOW of the same slot. -/
theorem exchange_cursor_of_high {s : State} (h : s.cursor.half = .high) (rx : Byte) :
    (exchange rx s).cursor = ⟨s.cursor.slot, .low⟩ := by
  rw [exchange_cursor, nextCursor_of_high h]

/-- In mode NONE an exchange at LOW sends the low byte of the word the buffer holds then (R134). -/
theorem exchange_txd_low_of_none {s : State} (hm : s.mode = .none) {r : Slot} (hc : s.cursor = ⟨r, .low⟩)
    (rx : Byte) : (exchange rx s).txd = lowByte (s.sb.read s.engine.sel r) := by
  have hne : s.cursor ≠ Cursor.start := ne_start_of_low (congrArg Cursor.half hc)
  rw [exchange_txd_of_none hm, selectionUpdate_of_ne hne, hc, byteOf_low]

/-- Two exchanges with other words between, which leave the latch and what was received. -/
theorem stream_two_exchanges {s u : State} {rx : Byte} (hu : u.stream = (exchange rx s).stream) (ry : Byte) :
    (exchange ry u).stream = s.stream ++ [(exchange rx s).txd, (exchange ry u).txd] := by
  rw [stream_exchange, hu, stream_exchange, List.append_assoc, List.singleton_append]

/-- Settles O19: the fetch of mode NONE reads the buffer, at LOW the word written between. -/
theorem modeNoneRereadsTheWord : Obligations.ModeNoneRereadsTheWord := by
  unfold Obligations.ModeNoneRereadsTheWord
  refine ⟨fun s rx hm => ?_, fun s rx ry sel new hm hh hsel hne => ?_⟩
  · exact ⟨_, drains_reactAll s _, Snapshot.eq_none_of_mode ((exchange_mode rx s).trans hm),
      exchange_txd_of_none hm rx⟩
  · have hupdate : selectionUpdate s.engine rx = sel := (selectionUpdate_eq_ite s.engine rx).trans hsel.symm
    have hhigh : (exchange rx s).txd = highByte (s.sb.read sel s.cursor.slot) := by
      rw [exchange_txd_of_none hm, hupdate, hh, byteOf_high]
    have hlow : (exchange ry (sbWrite (readAddress sel s.cursor.slot) new (exchange rx s))).txd = lowByte new := by
      have hmode := (sbWrite_mode (readAddress sel s.cursor.slot) new _).trans ((exchange_mode rx s).trans hm)
      rw [exchange_txd_low_of_none hmode (exchange_cursor_of_high hh rx), sbWrite_engine, exchange_sel, hupdate,
        sbWrite_sb, SampleBuffer.read_write, addressedWord_readAddress hne, if_pos rfl]
    refine ⟨_, drains_reactAll s _, ?_⟩
    rw [State.stream_withInbox, reactAll_cons, reactAll_cons, reactAll_cons, react_writeWord, ← hhigh, ← hlow]
    exact stream_two_exchanges (u := sbWrite _ new _) rfl ry

theorem not_exchange_of_isWrite {w : PortWord} (h : isWrite w = true) : isExchange w = false := by
  cases w with
  | cmd8 _ => cases h
  | sbw20 _ => rfl
  | pin _ => rfl

theorem not_reset_of_isWrite {w : PortWord} (h : isWrite w = true) : isReset w = false := by
  cases w with
  | cmd8 _ => rfl
  | sbw20 _ => rfl
  | pin _ => cases h

/-- The Sampler's writes leave the engine and the bytes on their way (R57, R130). -/
theorem reactAll_writes {ws : List PortWord} (h : ∀ w ∈ ws, isWrite w = true) (s : State) :
    (reactAll ws s).engine = s.engine ∧ (reactAll ws s).stream = s.stream := by
  induction ws generalizing s with
  | nil => exact ⟨rfl, rfl⟩
  | cons w ws ih =>
    obtain ⟨hw, hws⟩ := List.forall_mem_cons.1 h
    have he := not_exchange_of_isWrite hw
    have hr := not_reset_of_isWrite hw
    obtain ⟨hengine, hstream⟩ := ih hws (react w s)
    exact ⟨hengine.trans (react_other he hr s).1, hstream.trans (stream_react_other he hr s)⟩

/-- Mode WORD has a `HOLD` (R30, R31). -/
theorem Snapshot.eq_word_of_mode {r : Snapshot} (h : r.mode = .word) : ∃ w, r = .word w := by
  cases r with
  | none => cases h
  | word w => exact ⟨w, rfl⟩
  | triple _ => cases h

/-- Settles O20: at HIGH `HOLD` takes the word, no write touches it, and at LOW its low byte is sent. -/
theorem modeWordSendsWholeWords : Obligations.ModeWordSendsWholeWords := by
  unfold Obligations.ModeWordSendsWholeWords
  intro s rx ry ws sel hm hh hsel hws
  have hupdate : selectionUpdate s.engine rx = sel := (selectionUpdate_eq_ite s.engine rx).trans hsel.symm
  obtain ⟨w, hr⟩ := Snapshot.eq_word_of_mode hm
  obtain ⟨hheld, hhigh⟩ := exchange_of_word_high hupdate hr hh
  obtain ⟨hengine, hstream⟩ := reactAll_writes hws (exchange rx s)
  have hlowhalf : (reactAll ws (exchange rx s)).cursor.half = .low := by
    rw [State.cursor_eq, hengine, ← State.cursor_eq, exchange_cursor_of_high hh]
  have hlow := (exchange_of_word_low (hengine ▸ hheld) hlowhalf ry).2
  refine ⟨_, drains_reactAll s _, ?_⟩
  rw [State.stream_withInbox, List.cons_append, reactAll_cons, reactAll_append, ← hhigh, ← hlow]
  exact stream_two_exchanges hstream ry

/-! The frame of one instant (R136). -/

/-- Mode TRIPLE has a `SNAP` (R30, R31). -/
theorem Snapshot.eq_triple_of_mode {r : Snapshot} (h : r.mode = .triple) : ∃ v, r = .triple v := by
  cases r with
  | none => cases h
  | word _ => cases h
  | triple v => exact ⟨v, rfl⟩

/-- Inside a frame of mode TRIPLE an exchange does not read the buffer: with any other, only the buffer differs. -/
theorem exchange_withSb_of_triple {s : State} {v : Triple} (hr : s.engine.snapshot = .triple v)
    (hc : s.cursor ≠ Cursor.start) (rx : Byte) (b : SampleBuffer) :
    exchange rx (s.withSb b) = (exchange rx s).withSb b := by
  have hstep : engineStep s.engine b rx = engineStep s.engine s.sb rx := by
    simp only [engineStep, fetch_of_triple_rest hr hc]
  simp only [exchange, State.withSb_engine, State.withSb_sb, hstep]
  rfl

/-- Behind another buffer, a word that is neither exchange nor reset is not seen. -/
theorem react_other_withSb {w : PortWord} (he : isExchange w = false) (hr : isReset w = false) (s : State)
    (b : SampleBuffer) : (react w s).withSb b = s.withSb b := by
  obtain ⟨hengine, htxd, hout, hreset⟩ := react_other he hr s
  exact State.ext_fields rfl hengine htxd hreset (react_inbox w s) hout

/-- At position `n` of a cycle, not its first, the cursor is not at (0,HIGH). -/
theorem Sending.cursor_ne_start {sel : Sel} {v : Triple} {sent : List Byte} {n : Nat} {s : State}
    (h : Sending sel v sent n s) (h0 : n ≠ 0) (hn : n < 6) : s.cursor ≠ Cursor.start := fun hc => by
  have hpos := h.position
  rw [cursorPos_eq_zero_iff.2 hc] at hpos
  omega

/-- With `SNAP` captured, the frame goes on as if the buffer stayed the one `b` it was captured from, whatever is
written meanwhile. -/
theorem Sending.reactAll_of_triple {sel : Sel} {v : Triple} {sent : List Byte} {n : Nat} {s : State}
    {b : SampleBuffer} (h : Sending sel v sent n (s.withSb b)) (hsnap : s.engine.snapshot = .triple v)
    (h0 : n ≠ 0) {l : List PortWord} (hl : NoReset l) (hle : n + exchangeCount l ≤ 6) :
    Sending sel v sent (n + exchangeCount l) ((Machine.reactAll l s).withSb b) ∧
      (Machine.reactAll l s).engine.snapshot = .triple v := by
  induction l, hl using noReset_induction generalizing n s with
  | nil => exact ⟨h, hsnap⟩
  | exchange rx l hl ih =>
    rw [exchangeCount_cmd8_cons] at hle ⊢
    have hne : s.cursor ≠ Cursor.start := h.cursor_ne_start h0 (by omega)
    have hnext := h.exchange (by omega) (h.selectionUpdate_eq h0 (by omega) rx)
    rw [exchange_withSb_of_triple hsnap hne] at hnext
    have hkept := (exchange_of_fetch rfl (fetch_of_triple_rest hsnap hne _ _) (rx := rx)).1
    have hrest := ih hnext hkept (Nat.succ_ne_zero n) (by omega)
    rwa [Nat.add_assoc, Nat.add_comm 1] at hrest
  | other w l hl he hr ih =>
    rw [exchangeCount_cons_of_not he] at hle ⊢
    rw [← react_other_withSb he hr] at h
    exact ih h ((congrArg Engine.snapshot (Machine.react_other he hr s).1).trans hsnap) h0 hle

/-- Settles O21: the first exchange captures the triple, and the rest of the cycle goes on as if the buffer stayed
as it was then. -/
theorem modeTripleSendsWholeFrames : Obligations.ModeTripleSendsWholeFrames := by
  unfold Obligations.ModeTripleSendsWholeFrames
  intro s c l hm hs hl
  obtain ⟨rest, rfl, hrest, hcount⟩ := hl
  obtain ⟨v, hr⟩ := Snapshot.eq_triple_of_mode hm
  have hupdate := selectionUpdate_start hs c
  have hfirst : Sending _ _ _ 1 ((exchange c s).withSb s.sb) :=
    (Sending.of_start hs (decodeCommand c)).exchange (by decide) hupdate
  have hcaptured := (exchange_of_fetch hupdate (fetch_of_triple_start hr hs _ _)).1
  obtain ⟨hall, hkept⟩ := hfirst.reactAll_of_triple hcaptured (by decide) hrest (by omega)
  rw [hcount] at hall
  obtain ⟨hstream, hcursor, hsel⟩ := hall.six
  exact ⟨_, drains_reactAll s _, hstream, hcursor, hsel, hkept⟩

/-! The modes compared (R138). -/

/-- The two states agree on the selection, the cursor and the buffer. -/
structure SameSelection (s u : State) : Prop where
  sel : s.engine.sel = u.engine.sel
  cursor : s.cursor = u.cursor
  sb : s.sb = u.sb

/-- What a port word does to the selection, the cursor and the buffer depends on nothing but these. -/
theorem SameSelection.react {s u : State} (h : SameSelection s u) (w : PortWord) :
    SameSelection (react w s) (react w u) := by
  obtain ⟨hsel, hcursor, hsb⟩ := h
  cases w with
  | cmd8 rx =>
    refine ⟨?_, congrArg nextCursor hcursor, hsb⟩
    rw [State.cursor_eq, State.cursor_eq] at hcursor
    rw [react_cmd8, react_cmd8, exchange_sel, exchange_sel, selectionUpdate_eq_ite, selectionUpdate_eq_ite,
      hsel, hcursor]
  | sbw20 w => exact ⟨hsel, hcursor, congrArg (fun b => SampleBuffer.write b _ _) hsb⟩
  | pin rst =>
    simp only [Machine.react]
    split_ifs
    · exact ⟨rfl, rfl, hsb⟩
    · exact ⟨hsel, hcursor, hsb⟩

theorem SameSelection.reactAll {s u : State} (h : SameSelection s u) (l : List PortWord) :
    SameSelection (reactAll l s) (reactAll l u) := by
  induction l generalizing s u with
  | nil => exact h
  | cons w l ih => exact ih (h.react w)

theorem sameSelection_withEngine_snapshot (s : State) (r : Snapshot) :
    SameSelection s (s.withEngine { s.engine with snapshot := r }) := ⟨rfl, rfl, rfl⟩

/-- Settles O26: no event lets the snapshot register into the selection, the cursor or the buffer, and in every mode
such a cycle sends the frame of the selected triple. -/
theorem snapshotModesAgree : Obligations.SnapshotModesAgree := by
  unfold Obligations.SnapshotModesAgree
  refine ⟨fun s u l hu => ?_, fun s u c l hu hs hl hw => ?_⟩
  · obtain ⟨hsel, hcursor, hsb⟩ := (sameSelection_withEngine_snapshot s u.engine.snapshot).reactAll l
    rw [← hu] at hsel hcursor hsb
    exact ⟨_, _, drains_reactAll s l, drains_reactAll u l, hsel, hcursor, hsb⟩
  · have hsame := sameSelection_withEngine_snapshot s u.engine.snapshot
    have hstream : s.stream = u.stream := by
      rw [hu]
      rfl
    rw [← hu] at hsame
    have hkeeps := NoWriteTo.keepsTriple hw
    refine ⟨_, _, drains_reactAll s l, drains_reactAll u l, ?_⟩
    rw [State.stream_withInbox, State.stream_withInbox, (reactAll_cycle hs hl hkeeps).1,
      (reactAll_cycle (hsame.cursor ▸ hs) hl hkeeps).1, hstream, hsame.sb]

/-! The write's address map (R51, R53, R130, R131). -/

/-- A write at a word's address replaces that word (R130). -/
theorem exec_sbWr_word {t : Sel} (ht : t ≠ .null) (r : Slot) (d : Word) (s : State) :
    exec (.sbWr (selCode t) (slotCode r) d) s = .next (s.withSb (s.sb.replace t r d)) := by
  have hwrite : s.sb.write (readAddress t r) d = s.sb.replace t r d := by
    rw [SampleBuffer.write, addressedWord_readAddress ht]
  exact congrArg (fun b => Host.Outcome.next (s.withSb b)) hwrite

/-- Settles O15: the nine pairs are the codes of the nine words. -/
theorem wordWriteHitsItsAddress : Obligations.WordWriteHitsItsAddress := by
  unfold Obligations.WordWriteHitsItsAddress
  intro s d
  have hacc (r : Slot) := exec_sbWr_word (t := .acc) (by decide) r d s
  have hgyr (r : Slot) := exec_sbWr_word (t := .gyr) (by decide) r d s
  have htmp (r : Slot) := exec_sbWr_word (t := .tmp) (by decide) r d s
  exact ⟨hacc .x, hacc .y, hacc .z, hgyr .x, hgyr .y, hgyr .z, htmp .x, htmp .y, htmp .z⟩

/-- Settles O16: a reserved address names no word, and Null has no storage. -/
theorem reservedWriteChangesNothing : Obligations.ReservedWriteChangesNothing := by
  unfold Obligations.ReservedWriteChangesNothing
  intro s t r d h
  exact ⟨congrArg Host.Outcome.next (sbWrite_reserved h d s), fun u => SampleBuffer.read_null s.sb u⟩

end Sys2Proof.Machine

namespace Sys2Proof.Machine

/-! The reference temperature conversion (R154). -/

/-- Division toward zero, of a number that is not negative: the remainder is in `0 .. b - 1`. -/
theorem tdiv_bounds_of_nonneg {a b : Int} (ha : 0 ≤ a) (hb : 0 < b) :
    b * a.tdiv b ≤ a ∧ a < b * a.tdiv b + b := by
  have hsum := Int.mul_tdiv_add_tmod a b
  have hrem := Int.tmod_nonneg b ha
  have hlt := Int.tmod_lt_of_pos a hb
  omega

/-- Division toward zero, of a negative number: the quotient is that of its negation, negated. -/
theorem tdiv_bounds_of_neg {a b : Int} (ha : a < 0) (hb : 0 < b) :
    a ≤ b * a.tdiv b ∧ b * a.tdiv b - b < a := by
  have hneg := tdiv_bounds_of_nonneg (a := -a) (by omega) hb
  rw [Int.neg_tdiv, Int.mul_neg] at hneg
  omega

/-- The quotient of R154 is in `-59 .. 133`. -/
theorem tempQuotient_range (t : Word) :
    -59 ≤ (t.toInt + 12461).tdiv 340 ∧ (t.toInt + 12461).tdiv 340 ≤ 133 := by
  have hlow : -32768 ≤ t.toInt := t.le_toInt
  have hhigh : t.toInt < 32768 := t.toInt_lt
  obtain hnonneg | hneg := le_or_gt 0 (t.toInt + 12461)
  · have hb := tdiv_bounds_of_nonneg hnonneg (b := 340) (by decide)
    omega
  · have hb := tdiv_bounds_of_neg hneg (b := 340) (by decide)
    omega

/-- The quotient fits a word, so the conversion loses no bits of it (R154). -/
theorem tempConv_toInt (t : Word) : (tempConv t).toInt = (t.toInt + 12461).tdiv 340 := by
  obtain ⟨hlow, hhigh⟩ := tempQuotient_range t
  exact BitVec.toInt_ofInt_eq_self (by decide) (by omega) (by omega)

/-- Settles O39: the converted word is the quotient, and division toward zero bounds it on either side of zero. -/
theorem temperatureConversionTruncates : Obligations.TemperatureConversionTruncates := by
  unfold Obligations.TemperatureConversionTruncates
  intro t
  obtain ⟨hlow, hhigh⟩ := tempQuotient_range t
  rw [tempConv_toInt]
  exact ⟨hlow, hhigh, fun h => tdiv_bounds_of_nonneg h (by decide), fun h => tdiv_bounds_of_neg h (by decide)⟩

/-! What a refresh leaves in the buffer (R151, R156, R157, R158). -/

/-- A write transaction is its address and its data (R83). -/
theorem address_append_data (w : BitVec 20) : (w.extractLsb' 16 4 ++ w.extractLsb' 0 16 : BitVec 20) = w :=
  BitVec.extractLsb'_append_extractLsb' (w := 4) (len := 16)

/-- What was last written to a word was written to it by one of the port words. -/
theorem writeWord_mem_of_lastWritten {t : Sel} {r : Slot} {l : List PortWord} {d : Word}
    (h : lastWritten t r l = some d) : writeWord t r d ∈ l := by
  obtain ⟨w, hw, hd⟩ := List.exists_of_findSome?_eq_some h
  cases w with
  | cmd8 _ => cases hd
  | pin _ => cases hd
  | sbw20 w =>
    obtain ⟨ha, hd⟩ : w.extractLsb' 16 4 = readAddress t r ∧ w.extractLsb' 0 16 = d := by simpa using hd
    have hword : writeWord t r d = .sbw20 w := by rw [writeWord, ← ha, ← hd, address_append_data]
    rw [hword]
    exact List.mem_reverse.1 hw

/-- After a write to a word, something was last written to it. -/
theorem lastWritten_ne_none {t : Sel} {r : Slot} {l : List PortWord} {d : Word} (h : writeWord t r d ∈ l) :
    lastWritten t r l ≠ none := by
  intro hnone
  have hw := List.findSome?_eq_none_iff.1 hnone _ (List.mem_reverse.2 h)
  simp [writeWord, (write_of_address _ _).1] at hw

/-- Where all writes to a word carry the same data, their order does not matter. -/
theorem lastWritten_eq_of_mem_iff {t : Sel} {r : Slot} {l : List PortWord} {o : Option Word}
    (h : ∀ d, writeWord t r d ∈ l ↔ o = some d) : lastWritten t r l = o := by
  cases hl : lastWritten t r l with
  | some d => exact ((h d).1 (writeWord_mem_of_lastWritten hl)).symm
  | none =>
    cases o with
    | none => rfl
    | some d => exact absurd hl (lastWritten_ne_none ((h d).2 rfl))

/-- Where the writes among the port words are those of a reading in any order, each word's last write is of its
component of the triple the reading supplies (R157). -/
theorem lastWritten_of_perm_writes {conv : Word → Word} {q : RawReading} {l : List PortWord}
    (h : (l.filter isWrite).Perm (q.writes conv)) (t : Sel) (r : Slot) :
    lastWritten t r l = (q.supplies conv t).map (·.get r) := by
  refine lastWritten_eq_of_mem_iff fun d => ?_
  calc writeWord t r d ∈ l
    _ ↔ writeWord t r d ∈ l.filter isWrite := by simp
    _ ↔ writeWord t r d ∈ q.writes conv := h.mem_iff
    _ ↔ (q.supplies conv t).map (·.get r) = some d := by
      simp only [writeWord_mem_writes, Option.map_eq_some_iff, eq_comm (a := d)]

/-- After such port words each triple is what the reading supplies for it, or as it was. -/
theorem reactAll_sb_selected_of_perm_writes {conv : Word → Word} {q : RawReading} {l : List PortWord}
    (h : (l.filter isWrite).Perm (q.writes conv)) {t : Sel} (ht : t ≠ .null) (s : State) :
    (reactAll l s).sb.selected t = (q.supplies conv t).getD (s.sb.selected t) := by
  simp only [← SampleBuffer.read_triple, reactAll_sb_read ht, lastWritten_of_perm_writes h]
  cases q.supplies conv t with
  | none => rfl
  | some v => rfl

/-- What a refresh may store for a triple is nothing or what was acquired for it (R158). -/
theorem RawReading.MayStore.supplies_eq {r q : RawReading} (h : r.MayStore q) (conv : Word → Word) (t : Sel) :
    q.supplies conv t = none ∨ q.supplies conv t = r.supplies conv t := by
  obtain ⟨hacc, hgyr, htmp, -⟩ := h
  cases t with
  | acc => exact hacc.imp (congrArg (Option.map _)) (congrArg (Option.map _))
  | gyr => exact hgyr.imp (congrArg (Option.map _)) (congrArg (Option.map _))
  | tmp => exact htmp.imp (congrArg (Option.map _)) (congrArg (Option.map _))
  | null => exact .inl rfl

/-- After a refresh each triple is as it was, or what was acquired for it. -/
theorem reactAll_sb_selected_of_isRefresh {conv : Word → Word} {r : RawReading} {l : List PortWord}
    (h : IsRefresh conv r (l.filter isWrite)) {t : Sel} (ht : t ≠ .null) (s : State) :
    (reactAll l s).sb.selected t = s.sb.selected t ∨
      r.supplies conv t = some ((reactAll l s).sb.selected t) := by
  obtain ⟨q, hq, hperm⟩ := h
  rw [reactAll_sb_selected_of_perm_writes hperm ht]
  obtain hnone | hsame := hq.supplies_eq conv t
  · rw [hnone]
    exact .inl rfl
  · rw [hsame]
    cases r.supplies conv t with
    | none => exact .inl rfl
    | some v => exact .inr rfl

/-- After a refresh in which nothing failed each triple is what was acquired for it (R151). -/
theorem reactAll_sb_selected_of_complete {conv : Word → Word} {r : RawReading} {l : List PortWord}
    (h : IsRefresh conv r (l.filter isWrite)) (hc : r.complete = true) {t : Sel} (ht : t ≠ .null) {v : Triple}
    (hv : r.supplies conv t = some v) (s : State) : (reactAll l s).sb.selected t = v := by
  rw [reactAll_sb_selected_of_perm_writes ((isRefresh_iff_of_complete hc).1 h) ht, hv, Option.getD_some]

/-- A triple supplied from an acquisition is made of what was acquired. -/
theorem eq_of_map_eq_some {α : Type} {f : α → Triple} {o : Option α} {v : Triple} (h : o.map f = some v) :
    ∃ a, o = some a ∧ v = f a := by
  obtain ⟨a, ha, rfl⟩ := Option.map_eq_some_iff.1 h
  exact ⟨a, ha, rfl⟩

/-- The three triples are the whole buffer (R21). -/
theorem SampleBuffer.eq_of_selected {b : SampleBuffer} {u v w : Triple} (hacc : b.selected .acc = u)
    (hgyr : b.selected .gyr = v) (htmp : b.selected .tmp = w) : b = ⟨u, v, w⟩ := by
  subst hacc hgyr htmp
  rfl

/-- A Temperature frame of three equal words is their two bytes three times (R156). -/
theorem reactAll_temp_cycle {s : State} {w : Word} {m : List PortWord} (hw : s.sb.tmp = ⟨w, w, w⟩)
    (hs : s.cursor = Cursor.start) (hm : IsCycle 0x74#8 m) (hno : NoWriteTo .tmp m) :
    (reactAll m s).stream =
      s.stream ++ [highByte w, lowByte w, highByte w, lowByte w, highByte w, lowByte w] := by
  rw [(reactAll_cycle hs hm (NoWriteTo.keepsTriple hno)).1, decodeCommand_temp, SampleBuffer.selected, hw,
    frameBytes]

/-- Settles O40: the writes of a refresh agree on each word, so their order and the events among them do not
matter, and a Temperature cycle sends the triple the refresh left. -/
theorem refreshReplicatesTemperature : Obligations.RefreshReplicatesTemperature := by
  unfold Obligations.RefreshReplicatesTemperature
  intro conv r s l h
  refine ⟨_, drains_reactAll s l, ⟨?acc, ?gyr, ?tmp⟩, ?all, ?frame⟩
  case acc => exact (reactAll_sb_selected_of_isRefresh h (t := .acc) (by decide) s).imp_right eq_of_map_eq_some
  case gyr => exact (reactAll_sb_selected_of_isRefresh h (t := .gyr) (by decide) s).imp_right eq_of_map_eq_some
  case tmp =>
    refine (reactAll_sb_selected_of_isRefresh h (t := .tmp) (by decide) s).imp_right ?_
    intro hv
    obtain ⟨⟨b0, b1⟩, hb, heq⟩ := eq_of_map_eq_some hv
    exact ⟨b0, b1, hb, heq⟩
  case all =>
    intro a g b0 b1 ha hg hb
    have hc : r.complete = true := by simp [RawReading.complete, ha, hg, hb]
    have hacc := reactAll_sb_selected_of_complete h hc (t := .acc) (by decide) (congrArg (Option.map _) ha) s
    have hgyr := reactAll_sb_selected_of_complete h hc (t := .gyr) (by decide) (congrArg (Option.map _) hg) s
    have htmp := reactAll_sb_selected_of_complete h hc (t := .tmp) (by decide) (congrArg (Option.map _) hb) s
    exact SampleBuffer.eq_of_selected hacc hgyr htmp
  case frame =>
    intro w m hw hs hm hno
    refine ⟨_, drains_reactAll s (l ++ m), ?_⟩
    rw [State.stream_withInbox, State.stream_withInbox, reactAll_append]
    exact reactAll_temp_cycle hw hs hm hno

/-! A refresh in which an acquisition failed (R158). -/

/-- The part of a reading for the chosen triples. -/
def RawReading.part (r : RawReading) (acc gyr tmp : Bool) : RawReading where
  accel := if acc then r.accel else none
  gyro := if gyr then r.gyro else none
  temp := if tmp then r.temp else none

theorem RawReading.complete_eq_false_of_failed {r : RawReading}
    (h : r.accel = none ∨ r.gyro = none ∨ r.temp = none) : r.complete = false := by
  obtain h | h | h := h <;> simp [RawReading.complete, h]

/-- Where an acquisition failed, a refresh may store any part of the reading (R158). -/
theorem RawReading.mayStore_part {r : RawReading} (h : r.complete = false) (acc gyr tmp : Bool) :
    r.MayStore (r.part acc gyr tmp) :=
  ⟨(ite_eq_or_eq ..).symm, (ite_eq_or_eq ..).symm, (ite_eq_or_eq ..).symm,
    fun hc => absurd (h.symm.trans hc) (by decide)⟩

theorem isWrite_of_mem_writes {conv : Word → Word} {q : RawReading} {w : PortWord} (h : w ∈ q.writes conv) :
    isWrite w = true := by
  obtain ⟨t, r, d, rfl⟩ := mem_writes h
  exact isWrite_writeWord t r d

/-- The writes of a reading leave each triple it supplies as supplied, and the others as they were. -/
theorem reactAll_writes_sb_selected (conv : Word → Word) (q : RawReading) {t : Sel} (ht : t ≠ .null)
    (s : State) : (reactAll (q.writes conv) s).sb.selected t = (q.supplies conv t).getD (s.sb.selected t) := by
  refine reactAll_sb_selected_of_perm_writes ?_ ht s
  rw [List.filter_eq_self.2 fun w hw => isWrite_of_mem_writes hw]

/-- Settles O41: the refresh is the writes of the chosen part of the reading. -/
theorem failedRefreshStoresAnySubset : Obligations.FailedRefreshStoresAnySubset := by
  unfold Obligations.FailedRefreshStoresAnySubset
  intro conv r s acc gyr tmp hfailed
  have hpart := RawReading.mayStore_part (RawReading.complete_eq_false_of_failed hfailed) acc gyr tmp
  have hstored {t : Sel} (ht : t ≠ .null) := reactAll_writes_sb_selected conv (r.part acc gyr tmp) ht s
  obtain ⟨hengine, hstream⟩ := reactAll_writes (ws := (r.part acc gyr tmp).writes conv)
    (fun w hw => isWrite_of_mem_writes hw) s
  obtain ⟨houtbox, htxd⟩ := List.append_inj' hstream rfl
  obtain ⟨accel, gyro, temp⟩ := r
  refine ⟨_, _, ⟨_, hpart, .refl _⟩, drains_reactAll s _, ?_, ?_, ?_, hengine, List.singleton_inj.1 htxd, houtbox⟩
  · refine (hstored (t := .acc) (by decide)).trans ?_
    cases acc <;> cases accel <;> rfl
  · refine (hstored (t := .gyr) (by decide)).trans ?_
    cases gyr <;> cases gyro <;> rfl
  · refine (hstored (t := .tmp) (by decide)).trans ?_
    cases tmp <;> cases temp <;> rfl

end Sys2Proof.Machine

namespace Sys2Proof.Machine

/-- Settles O8: each event's meaning is a next state, a run is steps that each answer one, and `Fault` has no
constructor. -/
theorem noEventFaultsOrIsRefused : Obligations.NoEventFaultsOrIsRefused := by
  unfold Obligations.NoEventFaultsOrIsRefused
  exact ⟨exec_answers_next, runFor_answers_next, fun ⟨r⟩ => nomatch r⟩

/-! One sample of the ports, by its strobes (R38, R61, R176). -/

/-- Reset overrides the other strobes. -/
theorem PortSample.words_of_rst {p : PortSample} (h : p.rst = true) (first : Bool) :
    p.words first = [.pin 1#1] := by
  simp [PortSample.words, h]

/-- Without reset, the sample's words are its exchange's and its write's, in the order asked for. -/
theorem PortSample.words_of_not_rst {p : PortSample} (h : p.rst = false) (first : Bool) :
    p.words first =
      if first then p.writeWords ++ p.exchangeWords else p.exchangeWords ++ p.writeWords := by
  simp [PortSample.words, h]

theorem PortSample.exchangeWords_of_strobe {p : PortSample} (h : p.xchgDone = true) :
    p.exchangeWords = [.cmd8 p.rxData] := if_pos h

theorem PortSample.exchangeWords_of_not_strobe {p : PortSample} (h : p.xchgDone = false) :
    p.exchangeWords = [] := if_neg (Bool.eq_false_iff.1 h)

theorem PortSample.writeWords_of_strobe {p : PortSample} (h : p.sbWe = true) :
    p.writeWords = [.sbw20 (p.sbAddr ++ p.sbWdata)] := if_pos h

theorem PortSample.writeWords_of_not_strobe {p : PortSample} (h : p.sbWe = false) :
    p.writeWords = [] := if_neg (Bool.eq_false_iff.1 h)

/-- A sample without a write presents its exchange, in either order. -/
theorem PortSample.words_of_no_write {p : PortSample} (hr : p.rst = false) (hw : p.sbWe = false) (first : Bool) :
    p.words first = p.exchangeWords := by
  rw [words_of_not_rst hr, writeWords_of_not_strobe hw, List.nil_append, List.append_nil, ite_self]

/-- A sample without an exchange presents its write, in either order. -/
theorem PortSample.words_of_no_exchange {p : PortSample} (hr : p.rst = false) (hx : p.xchgDone = false)
    (first : Bool) : p.words first = p.writeWords := by
  rw [words_of_not_rst hr, exchangeWords_of_not_strobe hx, List.nil_append, List.append_nil, ite_self]

/-- A write transaction put together from an address and data is their write (R83). -/
theorem react_sbw20_append (a : BitVec 4) (d : Word) (s : State) :
    react (.sbw20 (a ++ d)) s = sbWrite a d s := by
  rw [react, wordAddress_of_write, (write_of_address a d).1, (write_of_address a d).2]

/-- A word address is its two fields (R51). -/
theorem wordAddress_of_fields (a : BitVec 4) : wordAddress (a.extractLsb' 2 2) (a.extractLsb' 0 2) = a :=
  BitVec.extractLsb'_append_extractLsb' (w := 2) (len := 2)

/-- The write event of an address's two fields is the write at that address (R130). -/
theorem exec_sbWr_of_fields (a : BitVec 4) (d : Word) (s : State) :
    exec (.sbWr (a.extractLsb' 2 2) (a.extractLsb' 0 2) d) s = .next (sbWrite a d s) :=
  congrArg (fun a => Host.Outcome.next (sbWrite a d s)) (wordAddress_of_fields a)

/-- Coincident strobes with the exchange first: the exchange, then the write (R61). -/
theorem PortSample.drains_exchange_first {p : PortSample} (hr : p.rst = false) (hx : p.xchgDone = true)
    (hw : p.sbWe = true) (s : State) :
    Drains s (p.words false) ((sbWrite p.sbAddr p.sbWdata (exchange p.rxData s)).withInbox []) := by
  rw [words_of_not_rst hr, exchangeWords_of_strobe hx, writeWords_of_strobe hw, ← react_sbw20_append]
  exact drains_reactAll s [.cmd8 p.rxData, .sbw20 (p.sbAddr ++ p.sbWdata)]

/-- Coincident strobes with the write first: the write, then the exchange (R61). -/
theorem PortSample.drains_write_first {p : PortSample} (hr : p.rst = false) (hx : p.xchgDone = true)
    (hw : p.sbWe = true) (s : State) :
    Drains s (p.words true) ((exchange p.rxData (sbWrite p.sbAddr p.sbWdata s)).withInbox []) := by
  rw [words_of_not_rst hr, exchangeWords_of_strobe hx, writeWords_of_strobe hw, ← react_sbw20_append]
  exact drains_reactAll s [.sbw20 (p.sbAddr ++ p.sbWdata), .cmd8 p.rxData]

/-- Settles O38: the strobes say which port words a sample presents. The exchange and the write touch disjoint
parts of the state, and only the byte the exchange fetches from the buffer depends on their order. -/
theorem portSampleOverrideAndCoincidence : Obligations.PortSampleOverrideAndCoincidence := by
  unfold Obligations.PortSampleOverrideAndCoincidence
  refine ⟨fun s p first hr => ?reset, fun s p hr hx hw => ?both, fun s p first hr =>
    ⟨fun hx hw => ?exchange, fun hx hw => ?write, fun hx hw => ?none⟩⟩
  case reset =>
    rw [PortSample.words_of_rst hr]
    exact ⟨_, drains_reactAll s [.pin 1#1], rfl⟩
  case both =>
    refine ⟨_, _, PortSample.drains_exchange_first hr hx hw s, PortSample.drains_write_first hr hx hw s,
      rfl, rfl, rfl, rfl, fun hm => ⟨exchange_txd_of_none hm p.rxData, ?_⟩⟩
    exact exchange_txd_of_none ((sbWrite_mode p.sbAddr p.sbWdata s).trans hm) p.rxData
  case exchange =>
    rw [PortSample.words_of_no_write hr hw, PortSample.exchangeWords_of_strobe hx]
    exact ⟨_, _, decode_cmd8 .., drains_reactAll s [.cmd8 p.rxData], exec_decodeExchange ..⟩
  case write =>
    rw [PortSample.words_of_no_exchange hr hx, PortSample.writeWords_of_strobe hw]
    refine ⟨_, drains_reactAll s [.sbw20 (p.sbAddr ++ p.sbWdata)], ?_⟩
    rw [exec_sbWr_of_fields, reactAll_cons, reactAll_nil, react_sbw20_append, sbWrite_withInbox]
  case none =>
    rw [PortSample.words_of_no_write hr hw, PortSample.exchangeWords_of_not_strobe hx]
    exact drains_reactAll s []

end Sys2Proof.Machine

namespace Sys2Proof.Machine

/-! A later RESET and power-up (R202). -/

/-- The state in which the master had received `p` before everything else it received. -/
def State.withReceivedBefore (s : State) (p : List Byte) : State := { s with outbox := p ++ s.outbox }

/-- No port word reads what the master has received: it reacts alike behind any bytes received before. -/
theorem react_withReceivedBefore (w : PortWord) (s : State) (p : List Byte) :
    react w (s.withReceivedBefore p) = (react w s).withReceivedBefore p := by
  cases w with
  | cmd8 rx =>
    have hout : (p ++ s.outbox) ++ [s.txd] = p ++ (s.outbox ++ [s.txd]) := List.append_assoc ..
    exact State.ext_fields rfl rfl rfl rfl rfl hout
  | sbw20 _ => rfl
  | pin rst =>
    simp only [react]
    split_ifs <;> rfl

theorem reactAll_withReceivedBefore (l : List PortWord) (s : State) (p : List Byte) :
    reactAll l (s.withReceivedBefore p) = (reactAll l s).withReceivedBefore p := by
  induction l generalizing s with
  | nil => rfl
  | cons w l ih => rw [reactAll_cons, react_withReceivedBefore, ih, reactAll_cons]

/-- RESET leaves the state of power-up with the buffer as it stands, behind what the master had received and with
the port words still to come (R200, R202). -/
theorem resetBlock_eq_powerUp (s : State) :
    resetBlock s =
      ((State.powerUp s.mode s.txdReset s.sb).withReceivedBefore s.outbox).withInbox s.inbox := by
  have hengine : resetEngine s.engine = ⟨.null, Cursor.start, Snapshot.ofMode s.mode⟩ := by
    rw [resetEngine, clearSnapshot_eq_ofMode, State.mode_eq]
  have hout : s.outbox = s.outbox ++ [] := (List.append_nil _).symm
  exact State.ext_fields rfl hengine rfl rfl rfl hout

/-- Settles O33: after its RESET the run stands in the power-up state, but for the bytes received before, which no
port word reads. -/
theorem resetIsPowerUpWithThisBuffer : Obligations.ResetIsPowerUpWithThisBuffer := by
  unfold Obligations.ResetIsPowerUpWithThisBuffer
  intro s l
  refine ⟨_, _, drains_reactAll s _, drains_reactAll _ l, ?_⟩
  rw [reactAll_cons, react_reset, resetBlock_eq_powerUp, reactAll_withInbox, reactAll_withReceivedBefore]
  exact ⟨rfl, rfl, rfl, rfl⟩

/-! The result of RESET (R200). -/

/-- `HOLD`, where it exists, is zero after RESET. -/
theorem hold_eq_zero_of_clearSnapshot {r : Snapshot} {h : Word} (hr : clearSnapshot r = .word h) : h = 0#16 := by
  cases r <;> cases hr
  rfl

/-- `SNAP`, where it exists, is zero after RESET. -/
theorem snap_eq_zero_of_clearSnapshot {r : Snapshot} {v : Triple} (hr : clearSnapshot r = .triple v) :
    v = ⟨0#16, 0#16, 0#16⟩ := by
  cases r <;> cases hr
  rfl

theorem clearSnapshot_clearSnapshot (r : Snapshot) : clearSnapshot (clearSnapshot r) = clearSnapshot r := by
  rw [clearSnapshot_eq_ofMode, clearSnapshot_mode, ← clearSnapshot_eq_ofMode]

/-- A second RESET changes nothing. -/
theorem resetBlock_resetBlock (s : State) : resetBlock (resetBlock s) = resetBlock s := by
  have hengine : resetEngine (resetEngine s.engine) = resetEngine s.engine := by
    rw [resetEngine, resetEngine_snapshot, clearSnapshot_clearSnapshot, ← resetEngine]
  exact State.ext_fields rfl hengine rfl rfl rfl rfl

/-- Settles O31: the fields are those of `resetBlock`, whose snapshot register is the old one cleared. -/
theorem resetEffect : Obligations.ResetEffect := by
  unfold Obligations.ResetEffect
  intro s
  exact ⟨resetBlock s, rfl, rfl, rfl, resetBlock_txd s, resetBlock_mode s, fun _ => hold_eq_zero_of_clearSnapshot,
    fun _ => snap_eq_zero_of_clearSnapshot, resetBlock_sb s, resetBlock_txdReset s, resetBlock_inbox s,
    resetBlock_outbox s, congrArg Host.Outcome.next (resetBlock_resetBlock s)⟩

end Sys2Proof.Machine

namespace Sys2Proof.Machine

/-! The step and the decoder (R80, R90). -/

/-- A step runs the event the word in front decodes to at the cursor of that moment. -/
theorem step_of_decode {s : State} {w : PortWord} {rest : List PortWord} {i : Instr} (hi : s.inbox = w :: rest)
    (hd : decode s.cursor w = .ok i) : step s = exec i (s.withInbox rest) := by
  have htake : takeWord w rest s = (some i, s.withInbox rest) := by rw [takeWord, hd]
  rw [step, hi]
  simp only [htake]

/-- The event of a table word is the decode, at the command position, of the port word its width tells. -/
theorem decodeTableWord_eq_some_iff {nbits w : Nat} {i : Instr} :
    decodeTableWord nbits w = some i ↔
      ∃ p, portWordOf nbits w = some p ∧ decode Cursor.start p = .ok i := by
  cases hp : portWordOf nbits w with
  | none => simp [decodeTableWord, hp]
  | some p => cases hd : decode Cursor.start p <;> simp [decodeTableWord, hp, hd]

/-- A table word that is a port word is placed in front of the words still to come. -/
theorem State.withFetchWord_of_portWordOf {nbits w : Nat} {p : PortWord} (hp : portWordOf nbits w = some p)
    (s : State) : s.withFetchWord nbits w = s.withInbox (p :: s.inbox) := by
  rw [State.withFetchWord, placeWord, hp]

/-- Settles O6: the step runs the decode of the word it takes; a placed table word is the word in front, decodes at
(0,HIGH) to its table event, and taking it gives the state back. -/
theorem stepRunsDecodedEvent : Obligations.StepRunsDecodedEvent := by
  unfold Obligations.StepRunsDecodedEvent
  refine ⟨fun s w rest i => step_of_decode, fun s nbits w i hc htable => ?_⟩
  obtain ⟨p, hp, hd⟩ := decodeTableWord_eq_some_iff.1 htable
  have hd' : decode (s.withInbox (p :: s.inbox)).cursor p = .ok i := by rwa [← hc] at hd
  rw [State.withFetchWord_of_portWordOf hp, step_of_decode rfl hd', State.withInbox_withInbox,
    State.withInbox_self]

/-- The reset input at 0 is no event (R38). -/
theorem react_resetInputLow (s : State) : react (.pin 0#1) s = s := rfl

/-- Settles O7: an empty list of words leaves the state, and the reset input at 0 is taken without a reaction. -/
theorem stepWithoutEventChangesNothing : Obligations.StepWithoutEventChangesNothing := by
  unfold Obligations.StepWithoutEventChangesNothing
  refine ⟨fun s => step_of_inbox_nil, fun s rest hi => ?_⟩
  rw [step_of_inbox_cons hi, react_resetInputLow]

end Sys2Proof.Machine
